-- ==== Sys2Proof/Word.lean ====
section
/-! DEFINITION. The word types of the block's ports and registers (spec/00_scope.md R6, R8; spec/30_encoding.md R70). -/

namespace Sys2Proof

/-- `W`, the width of command, data and response words: 32 bits (R6). -/
abbrev Word := BitVec 32

/-- One byte of a host's byte buffer. The block itself addresses no bytes (R50, R52). -/
abbrev Byte := BitVec 8

/-- A word read as an IEEE 754 binary32 pattern: bit 31 the sign, bits 30:23 the biased exponent, bits 22:0 the
fraction (R8). It is the word itself: the ports carry it with no conversion (R52, R72). -/
abbrev F32 := BitVec 32

/-- A command: the command word CW and the data word DW, delivered as one indivisible pair (R51, R70). -/
structure Command where
  cw : Word
  dw : Word
  deriving DecidableEq, Repr

end Sys2Proof
end

