-- ==== Sys2Proof/Config.lean ====
section
/-! DEFINITION. The implementation parameters of spec/00_scope.md R6, and the free values: constants with no body, so
that no proof can use a value of theirs. -/

namespace Sys2Proof

/-- The two orders in which a host can lay a 32-bit word out in byte memory (R52). -/
inductive ByteOrder where
  | little
  | big
  deriving DecidableEq, Repr, Inhabited

/-- The four rounding operations of R9, the argument that tells one free NaN from another. -/
inductive FloatOp where
  | add
  | sub
  | mul
  | div
  deriving DecidableEq, Repr

/-- What tells one NaN pattern from another: the sign, and the fraction less one (a NaN's fraction is never 0). -/
structure NaNBits where
  sign : Bool
  fracPred : Fin 8388607
  deriving DecidableEq, Repr, Inhabited

/-- `SIN2PI`, the evaluator of sin(2*pi*x): OPEN, a total function from binary32 to binary32 (R6, R7, D5).
FREE VALUE (notes/assumptions/5.md). -/
opaque Config.sin2pi : F32 → F32

/-- `HOST_BYTE_ORDER`, the byte order of a host that stores words in byte memory: OPEN (R6, R52, D24).
FREE VALUE (notes/assumptions/7.md). -/
opaque Config.hostByteOrder : ByteOrder

/-- The sign and fraction of a NaN that `fadd`, `fsub`, `fmul` or `fdiv` makes from these operands: the spec states
none. FREE VALUE, DESIGN CHOICE (notes/assumptions/6.md). -/
opaque Config.nanBits : FloatOp → F32 → F32 → NaNBits

/-- `SR_RESET`, the sample rate held after power-on reset: 44100.0 (R6, R230). -/
def Config.srReset : F32 := 0x472C4400#32

/-- `PW`, the fixed pulse width: 0.5 (R6, R104). -/
def Config.pulseWidth : F32 := 0x3F000000#32

/-- `FMAX_RATIO`, the largest admitted frequency as a fraction of the sample rate: 0.5 (R6, R27). -/
def Config.fmaxRatio : F32 := 0x3F000000#32

/-- `NREG`, the number of readable registers: 12 (R6, R20). -/
def Config.nreg : Nat := 12

/-- `NWAVE`, the number of BOSC waveforms: 4 (R6, R24). -/
def Config.nwave : Nat := 4

end Sys2Proof
end

