-- ==== Sys2Proof/Syntax.lean ====
section
/-! DEFINITION. The commands (spec/30_encoding.md R73, spec/opcode_table.json), their operand forms (R71), and the
pseudo-instructions and assembly operands of R79 and R80. -/

namespace Sys2Proof

/-- The twelve commands. A form N command has no operand, a form I command has IMM8, a form D command has DW read as
binary32 (R71, R72). A data word that a form ignores is no part of the command. -/
inductive Instr where
  /-- NOP (R180) -/
  | nop
  /-- OSC.PROC (R110) -/
  | oscProc
  /-- OSC.RST (R115) -/
  | oscRst
  /-- OSC.WAVE imm (R116) -/
  | oscWave (imm : BitVec 8)
  /-- OSC.FREQ x (R117) -/
  | oscFreq (x : F32)
  /-- SUB.PROC (R150) -/
  | subProc
  /-- SUB.RST (R155) -/
  | subRst
  /-- SUB.OCT imm (R157) -/
  | subOct (imm : BitVec 8)
  /-- SUB.CAR x (R158) -/
  | subCar (x : F32)
  /-- SETSR x (R181) -/
  | setsr (x : F32)
  /-- READ imm (R182) -/
  | read (imm : BitVec 8)
  /-- CLRST (R183) -/
  | clrst
  deriving DecidableEq, Repr

/-- The three operand forms (R71). -/
inductive Form where
  /-- No operand: IMM8 must be 0 and DW is ignored. -/
  | n
  /-- Immediate: IMM8 is the operand and DW is ignored. -/
  | i
  /-- Data: IMM8 must be 0 and DW is the binary32 operand. -/
  | d
  deriving DecidableEq, Repr

/-- The form of each command (R73). -/
def Instr.form : Instr → Form
  | .nop => .n
  | .oscProc => .n
  | .oscRst => .n
  | .oscWave _ => .i
  | .oscFreq _ => .d
  | .subProc => .n
  | .subRst => .n
  | .subOct _ => .i
  | .subCar _ => .d
  | .setsr _ => .d
  | .read _ => .i
  | .clrst => .n

/-- The pseudo-instructions of the assembly language (R80). -/
inductive Pseudo where
  /-- PREPARE sr -/
  | prepare (sr : F32)
  /-- TICK -/
  | tick
  /-- VOICE.RST -/
  | voiceRst
  /-- OSC.SINE -/
  | oscSine
  /-- OSC.TRI -/
  | oscTri
  /-- OSC.SAW -/
  | oscSaw
  /-- OSC.PULSE -/
  | oscPulse
  /-- SUB.DOWN1 -/
  | subDown1
  /-- SUB.DOWN2 -/
  | subDown2
  /-- SUB.LOCK f -/
  | subLock (f : F32)
  deriving DecidableEq, Repr

end Sys2Proof
end

