-- ==== Sys2Proof/WellFormed.lean ====
section
/-! DEFINITION. Which command words are legal, read off the opcode map (spec/30_encoding.md R73, R74). A term of `Instr`
needs no check of its own: its fields have the widths of the encoding, and every value of them is legal (R75). -/

namespace Sys2Proof

/-- A row of the opcode map: a CW selects it when `(CW & mask) == match` (R73). -/
structure OpcodeRow where
  mnemonic : String
  form : Form
  matchBits : Word
  mask : Word
  deriving DecidableEq, Repr

/-- The opcode map of R73 (spec/opcode_table.json). -/
def opcodeTable : List OpcodeRow :=
  [ ⟨"NOP", .n, 0x00000000#32, 0xFFFFFFFF#32⟩,
    ⟨"OSC.PROC", .n, 0x00000001#32, 0xFFFFFFFF#32⟩,
    ⟨"OSC.RST", .n, 0x00000002#32, 0xFFFFFFFF#32⟩,
    ⟨"OSC.WAVE", .i, 0x00000003#32, 0xFFFF00FF#32⟩,
    ⟨"OSC.FREQ", .d, 0x00000004#32, 0xFFFFFFFF#32⟩,
    ⟨"SUB.PROC", .n, 0x00000011#32, 0xFFFFFFFF#32⟩,
    ⟨"SUB.RST", .n, 0x00000012#32, 0xFFFFFFFF#32⟩,
    ⟨"SUB.OCT", .i, 0x00000013#32, 0xFFFF00FF#32⟩,
    ⟨"SUB.CAR", .d, 0x00000014#32, 0xFFFFFFFF#32⟩,
    ⟨"SETSR", .d, 0x00000020#32, 0xFFFFFFFF#32⟩,
    ⟨"READ", .i, 0x00000021#32, 0xFFFF00FF#32⟩,
    ⟨"CLRST", .n, 0x00000022#32, 0xFFFFFFFF#32⟩ ]

/-- Does the command word select the row? (R73) -/
def OpcodeRow.selects (r : OpcodeRow) (cw : Word) : Bool := (cw &&& r.mask) == r.matchBits

/-- A CW is legal exactly when it matches one row of the map (R74). -/
def legalWord (cw : Word) : Bool := opcodeTable.any (·.selects cw)

/-- A command is well-formed when its CW is legal: "DW never makes a command illegal" (R74). -/
def Command.wf (c : Command) : Bool := legalWord c.cw

end Sys2Proof
end

