-- ==== Sys2Proof/Decode.lean ====
section
/-! DEFINITION. The decoder (total on every command pair, spec/30_encoding.md R70 to R78), the encoder, and a host's
byte buffer of commands (spec/20_memory.md R52). -/

namespace Sys2Proof

/-- OP, CW[7:0] (R70). -/
def opField (cw : Word) : BitVec 8 := cw.extractLsb' 0 8

/-- IMM8, CW[15:8] (R70). -/
def immField (cw : Word) : BitVec 8 := cw.extractLsb' 8 8

/-- RSV, CW[31:16] (R70). -/
def rsvField (cw : Word) : BitVec 16 := cw.extractLsb' 16 16

/-- The three ways a CW is illegal (R74). -/
inductive Illegal where
  /-- OP is not one of the twelve opcodes. -/
  | reservedOpcode
  /-- RSV is not 0. -/
  | rsvNotZero
  /-- OP is a form N or form D opcode and IMM8 is not 0. -/
  | immNotZero
  deriving DecidableEq, Repr

/-- Form N and form D: IMM8 must be 0 (R71, R74). -/
def requireNoImm (cw : Word) (i : Instr) : Except Illegal Instr :=
  if immField cw = 0#8 then .ok i else .error .immNotZero

/-- The command of a legal opcode with RSV = 0 (R73). -/
def decodeOp (cw dw : Word) : Except Illegal Instr :=
  match opField cw with
  | 0x00#8 => requireNoImm cw .nop
  | 0x01#8 => requireNoImm cw .oscProc
  | 0x02#8 => requireNoImm cw .oscRst
  | 0x03#8 => .ok (.oscWave (immField cw))
  | 0x04#8 => requireNoImm cw (.oscFreq dw)
  | 0x11#8 => requireNoImm cw .subProc
  | 0x12#8 => requireNoImm cw .subRst
  | 0x13#8 => .ok (.subOct (immField cw))
  | 0x14#8 => requireNoImm cw (.subCar dw)
  | 0x20#8 => requireNoImm cw (.setsr dw)
  | 0x21#8 => .ok (.read (immField cw))
  | 0x22#8 => requireNoImm cw .clrst
  | _ => .error .reservedOpcode

/-- The decoder, total on every command pair (R74): a command, or the reason why the word is illegal. -/
def decode (c : Command) : Except Illegal Instr :=
  if rsvField c.cw = 0#16 then decodeOp c.cw c.dw else .error .rsvNotZero

/-- A command word from its fields, RSV = 0 (R70). -/
def commandWord (op imm : BitVec 8) : Word := 0#16 ++ imm ++ op

/-- The encoder (R73). The data word of forms N and I is 0, as R79 writes it. -/
def encode : Instr → Command
  | .nop => ⟨commandWord 0x00#8 0#8, 0#32⟩
  | .oscProc => ⟨commandWord 0x01#8 0#8, 0#32⟩
  | .oscRst => ⟨commandWord 0x02#8 0#8, 0#32⟩
  | .oscWave imm => ⟨commandWord 0x03#8 imm, 0#32⟩
  | .oscFreq x => ⟨commandWord 0x04#8 0#8, x⟩
  | .subProc => ⟨commandWord 0x11#8 0#8, 0#32⟩
  | .subRst => ⟨commandWord 0x12#8 0#8, 0#32⟩
  | .subOct imm => ⟨commandWord 0x13#8 imm, 0#32⟩
  | .subCar x => ⟨commandWord 0x14#8 0#8, x⟩
  | .setsr x => ⟨commandWord 0x20#8 0#8, x⟩
  | .read imm => ⟨commandWord 0x21#8 imm, 0#32⟩
  | .clrst => ⟨commandWord 0x22#8 0#8, 0#32⟩

/-- The command pair whose bits are `w`, numbered as spec/opcode_table.json numbers them: CW in bits 31:0, DW in bits
63:32, every bit from `nbits` up 0. The words cross the port whole, so no byte order enters (R52). -/
def tableCommand (nbits w : Nat) : Command :=
  let v := w % 2 ^ nbits
  ⟨BitVec.ofNat 32 v, BitVec.ofNat 32 (v / 2 ^ 32)⟩

/-- The command the decoder reads from those bits. -/
def decodeTableWord (nbits w : Nat) : Option Instr := (decode (tableCommand nbits w)).toOption

/-! ### A host's byte buffer (R52)
The block sees whole words; only a host that stages words in byte memory has a byte order, `HOST_BYTE_ORDER`. -/

/-- The word that four bytes, lowest address first, hold. -/
def wordOfBytes (o : ByteOrder) (b0 b1 b2 b3 : Byte) : Word :=
  match o with
  | .little => b3 ++ b2 ++ b1 ++ b0
  | .big => b0 ++ b1 ++ b2 ++ b3

/-- The four bytes of a word, lowest address first. -/
def bytesOfWord (o : ByteOrder) (w : Word) : List Byte :=
  match o with
  | .little => [w.extractLsb' 0 8, w.extractLsb' 8 8, w.extractLsb' 16 8, w.extractLsb' 24 8]
  | .big => [w.extractLsb' 24 8, w.extractLsb' 16 8, w.extractLsb' 8 8, w.extractLsb' 0 8]

/-- The first command of a byte buffer and the bytes after it: CW first and DW second (R70), eight bytes always
(R78). `none` where fewer than eight bytes are left: the port never carries half a pair (R51). -/
def commandOfBytes (o : ByteOrder) : List Byte → Option (Command × List Byte)
  | a0 :: a1 :: a2 :: a3 :: b0 :: b1 :: b2 :: b3 :: rest =>
      some (⟨wordOfBytes o a0 a1 a2 a3, wordOfBytes o b0 b1 b2 b3⟩, rest)
  | _ => none

/-- A command as a host with this byte order stores it. -/
def bytesOfCommand (o : ByteOrder) (c : Command) : List Byte := bytesOfWord o c.cw ++ bytesOfWord o c.dw

/-- The commands of a byte buffer of `n` commands, at the host's own byte order. -/
def hostCommands : Nat → List Byte → Option (List Command)
  | 0, [] => some []
  | 0, _ :: _ => none
  | n + 1, bs =>
    match commandOfBytes Config.hostByteOrder bs with
    | none => none
    | some (c, rest) => (hostCommands n rest).map (c :: ·)

end Sys2Proof
end

