-- ==== Sys2Proof/Machine/State.lean ====
section
/-! DEFINITION. The state of the block (spec/10_state.md R20), with its two ports (spec/20_memory.md R51, R53). -/

namespace Sys2Proof.Machine

/-- There is no fault: "The block never traps, halts or stops taking commands" (R200), and no behaviour of the spec is
treated as a fault or a stuck state (spec/93_implementation_defined.md, the end of Part 1). Nobody raises one. -/
inductive Fault where
  deriving DecidableEq, Repr

/-- The refusals. -/
inductive Refusal where
  /-- An instruction with no meaning yet, named by its mnemonic: safe (nothing is said of it). No arm of `exec` raises
  it: every command of the table has its meaning. -/
  | notModelled (mnemonic : String)
  deriving DecidableEq, Repr

/-- What the host can do to the block, one at a time (R51, R60). -/
inductive HostInput where
  /-- Send a command pair over the command port, as one indivisible transfer (R51). -/
  | command (c : Command)
  /-- Drive the power-on reset input (R51, R230). -/
  | powerOnReset
  deriving DecidableEq, Repr

/-- The twelve registers of R20, the response port, and, for the host outside the block, what it has still to send and
which responses it has taken. -/
@[ext]
structure State where
  /-- OSC_PHASE, index 0: the BOSC phase as a fraction of one period (R21). -/
  oscPhase : F32
  /-- OSC_INC, index 1: the BOSC phase increment per sample (R22). -/
  oscInc : F32
  /-- OSC_FREQ, index 2: the BOSC frequency in hertz (R23). -/
  oscFreq : F32
  /-- OSC_WAVE, index 3: 0 sine, 1 triangle, 2 saw, 3 pulse (R24). -/
  oscWave : BitVec 2
  /-- OSC_OUT, index 4: the last sample OSC.PROC produced (R25). -/
  oscOut : F32
  /-- SUB_PHASE, index 5 (R26). -/
  subPhase : F32
  /-- SUB_INC, index 6 (R26). -/
  subInc : F32
  /-- SUB_CARRIER, index 7: the carrier frequency in hertz (R26). -/
  subCarrier : F32
  /-- SUB_OCT, index 8: the octave shift, 1 or 2 (R26). -/
  subOct : BitVec 2
  /-- SUB_OUT, index 9: the last sample SUB.PROC produced (R26). -/
  subOut : F32
  /-- SR, index 10: the sample rate in hertz (R27). -/
  sr : F32
  /-- STATUS, index 11: bit 0 CFG, bit 1 ILL, bit 2 NAN, bits 31:3 reserved (R29). -/
  status : Word
  /-- The response port: the word the host has not yet taken. It never holds more than one (R53). -/
  respPort : Option Word
  /-- The MODEL's own field (notes/assumptions/1.md): what the host has still to send, in order. No block register
  records the position in the command stream; it belongs to the host (R32). -/
  cmdPort : List HostInput
  /-- The MODEL's own field (notes/assumptions/2.md): the response words the host has taken, oldest first (R53). -/
  respTaken : List Word
  deriving DecidableEq, Repr

/-- Power-on reset (R20's reset column, R230): every register at its reset value, the response port empty. The host
has sent and taken nothing yet (DESIGN CHOICE, notes/assumptions/1.md and 2.md). -/
def State.reset : State where
  oscPhase := 0x00000000#32
  oscInc := 0x00000000#32
  oscFreq := 0x00000000#32
  oscWave := 0#2
  oscOut := 0x00000000#32
  subPhase := 0x00000000#32
  subInc := 0x00000000#32
  subCarrier := 0x00000000#32
  subOct := 1#2
  subOut := 0x00000000#32
  sr := Config.srReset
  status := 0x00000000#32
  respPort := none
  cmdPort := []
  respTaken := []

end Sys2Proof.Machine
end

