-- ==== Sys2Proof/Machine/Flags.lean ====
section
/-! DEFINITION. STATUS: its fields (spec/10_state.md R29 to R31) and the conditions that set them
(spec/60_exceptions.md R201). -/

namespace Sys2Proof.Machine

/-- The four conditions the block detects (R201). -/
inductive Condition where
  /-- A configuration value was out of range and was clamped, replaced or ignored. -/
  | configOutOfRange
  /-- The command word was illegal (R76). -/
  | illegalWord
  /-- READ named a reserved register index (R182). -/
  | reservedIndex
  /-- A PROCESS produced a non-finite value (R109). -/
  | nonFiniteOutput
  deriving DecidableEq, Repr

/-- STATUS.CFG, bit 0 (R29). -/
def cfgBit : Word := 0x00000001#32

/-- STATUS.ILL, bit 1 (R29). -/
def illBit : Word := 0x00000002#32

/-- STATUS.NAN, bit 2 (R29). -/
def nanBit : Word := 0x00000004#32

/-- The STATUS bit that is a condition's code (R201). -/
def Condition.statusBit : Condition → Word
  | .configOutOfRange => cfgBit
  | .illegalWord => illBit
  | .reservedIndex => illBit
  | .nonFiniteOutput => nanBit

/-- STATUS with a condition recorded: the bit is sticky, and no other bit changes (R31). -/
def recordCondition (c : Condition) (status : Word) : Word := status ||| c.statusBit

/-- STATUS after CLRST: every field 0 (R183). -/
def clearedStatus : Word := 0x00000000#32

/-- The field CFG (R29). -/
def State.cfg (s : State) : Bool := s.status.getLsbD 0

/-- The field ILL (R29). -/
def State.ill (s : State) : Bool := s.status.getLsbD 1

/-- The field NAN (R29). -/
def State.nan (s : State) : Bool := s.status.getLsbD 2

end Sys2Proof.Machine
end

