-- ==== Sys2Proof/Machine/Binary32.lean ====
section
/-! DEFINITION. The binary32 primitives of spec/00_scope.md R9: IEEE 754, round to nearest with ties to even, subnormals
kept, no fused multiply-add. Where R9 says only "IEEE 754", the detail is IEEE 754's own (PRESUMED, notes/assumptions/11.md).

A finite value is a whole number of UNITS of 2^-149, the smallest subnormal. The 31 bits below the sign, read as one
number, order the magnitudes, and count them: this is what makes rounding one formula. -/

namespace Sys2Proof.Machine

/-- +0.0 -/
def f0 : F32 := 0x00000000#32
/-- 0.25 -/
def fQuarter : F32 := 0x3E800000#32
/-- 0.5 -/
def fHalf : F32 := 0x3F000000#32
/-- 1.0 -/
def f1 : F32 := 0x3F800000#32
/-- -1.0 -/
def fNeg1 : F32 := 0xBF800000#32
/-- 2.0 -/
def f2 : F32 := 0x40000000#32

/-- Bit 31, the sign (R8). -/
def signBit (w : F32) : Bool := w.msb

/-- Bits 30:0, the magnitude's pattern (R8). -/
def mag (w : F32) : Nat := w.toNat % 2 ^ 31

/-- The magnitude pattern of an infinity: exponent all ones, fraction 0 (R8). -/
def infMag : Nat := 0x7F800000

/-- A NaN: exponent all ones, fraction not 0 (R8). -/
def isNaN (w : F32) : Bool := decide (infMag < mag w)

/-- An infinity (R8). -/
def isInf (w : F32) : Bool := decide (mag w = infMag)

/-- True unless `w` is an infinity or a NaN (R9). -/
def finite (w : F32) : Bool := decide (mag w < infMag)

/-- The pattern with this sign and this magnitude pattern (R8). -/
def ofMag (neg : Bool) (m : Nat) : F32 := BitVec.ofNat 32 (if neg then 2 ^ 31 + m else m)

/-- The magnitude, in units of 2^-149, of a finite magnitude pattern: a subnormal is its fraction, a normal number has
the hidden bit and is scaled by its exponent (R8). -/
def unitsOf (m : Nat) : Nat := if m < 2 ^ 23 then m else (2 ^ 23 + m % 2 ^ 23) * 2 ^ (m / 2 ^ 23 - 1)

/-- The exact value of a finite pattern, in units of 2^-149 (R8). -/
def exactUnits (w : F32) : Int := if signBit w then -(unitsOf (mag w) : Int) else (unitsOf (mag w) : Int)

/-- The whole number nearest to `n / d`, ties to even (R9). -/
def roundDiv (n d : Nat) : Nat :=
  if d < 2 * (n % d) ∨ (2 * (n % d) = d ∧ n / d % 2 = 1) then n / d + 1 else n / d

/-- How many low bits of `n / d` units lie below a 24-bit significand; 0 for subnormals and the first binade. -/
def roundShift (n d : Nat) : Nat := Nat.log2 (n / d) - 23

/-- The magnitude pattern nearest to `n / d` units, ties to even (R9). The significand is rounded to a whole number of
`2 ^ roundShift` units; carrying into the exponent needs no case of its own, and a magnitude past the largest finite
one is the infinity. -/
def roundMag (n d : Nat) : Nat :=
  min infMag (roundShift n d * 2 ^ 23 + roundDiv n (d * 2 ^ roundShift n d))

/-- The NaN an operation makes: its sign and fraction are free (notes/assumptions/6.md). -/
def nanResult (op : FloatOp) (a b : F32) : F32 :=
  ofMag (Config.nanBits op a b).sign (infMag + 1 + (Config.nanBits op a b).fracPred.val)

/-- `fabs`: the sign bit cleared (R9). -/
def fabs (a : F32) : F32 := a &&& 0x7FFFFFFF#32

/-- The sign bit inverted: the operand change that makes `fsub` an addition. -/
def fneg (a : F32) : F32 := a ^^^ 0x80000000#32

/-- Addition of finite operands: the exact sum, rounded once. An exact zero is -0.0 only where both operands are
negative. -/
def faddFinite (a b : F32) : F32 :=
  let z := exactUnits a + exactUnits b
  if z = 0 then ofMag (signBit a && signBit b) 0 else ofMag (decide (z < 0)) (roundMag z.natAbs 1)

/-- Multiplication of finite operands: the exact product, rounded once. -/
def fmulFinite (a b : F32) : F32 :=
  ofMag (signBit a ^^ signBit b) (roundMag (unitsOf (mag a) * unitsOf (mag b)) (2 ^ 149))

/-- Division of finite operands, the divisor not zero: the exact quotient, rounded once. -/
def fdivFinite (a b : F32) : F32 :=
  ofMag (signBit a ^^ signBit b) (roundMag (unitsOf (mag a) * 2 ^ 149) (unitsOf (mag b)))

/-- `fadd` (R9). -/
def fadd (a b : F32) : F32 :=
  if isNaN a || isNaN b || (isInf a && isInf b && (signBit a ^^ signBit b)) then nanResult .add a b
  else if isInf a then a
  else if isInf b then b
  else faddFinite a b

/-- `fsub` (R9). -/
def fsub (a b : F32) : F32 :=
  if isNaN a || isNaN b || (isInf a && isInf b && !(signBit a ^^ signBit b)) then nanResult .sub a b
  else fadd a (fneg b)

/-- `fmul` (R9). -/
def fmul (a b : F32) : F32 :=
  if isNaN a || isNaN b || (isInf a && decide (mag b = 0)) || (decide (mag a = 0) && isInf b) then nanResult .mul a b
  else if isInf a || isInf b then ofMag (signBit a ^^ signBit b) infMag
  else fmulFinite a b

/-- `fdiv` (R9). -/
def fdiv (a b : F32) : F32 :=
  if isNaN a || isNaN b || (isInf a && isInf b) || (decide (mag a = 0) && decide (mag b = 0)) then nanResult .div a b
  else if isInf a || decide (mag b = 0) then ofMag (signBit a ^^ signBit b) infMag
  else if isInf b then ofMag (signBit a ^^ signBit b) 0
  else fdivFinite a b

/-- The place of a pattern that is no NaN in the order of binary32: both zeros at 0, the infinities outermost. -/
def orderKey (w : F32) : Int := if signBit w then -(mag w : Int) else (mag w : Int)

/-- `flt`, false when either operand is NaN (R9). -/
def flt (a b : F32) : Bool := !isNaN a && !isNaN b && decide (orderKey a < orderKey b)

/-- `fle`, false when either operand is NaN (R9). -/
def fle (a b : F32) : Bool := !isNaN a && !isNaN b && decide (orderKey a ≤ orderKey b)

/-- `fgt`, false when either operand is NaN (R9). -/
def fgt (a b : F32) : Bool := flt b a

/-- `fge`, false when either operand is NaN (R9). -/
def fge (a b : F32) : Bool := fle b a

/-- `a == b`, IEEE equality: +0.0 == -0.0, and a NaN equals nothing (R9). -/
def feq (a b : F32) : Bool := !isNaN a && !isNaN b && decide (orderKey a = orderKey b)

/-- `fmin`: `a` if `fle(a,b)`, else `b` (R9). -/
def fmin (a b : F32) : F32 := if fle a b then a else b

/-- `bits`: the 32-bit pattern of a binary32 value (R9), here the value itself. -/
def bits (y : F32) : Word := y

end Sys2Proof.Machine
end

