-- ==== Sys2Proof/Machine/Operands.lean ====
section
/-! DEFINITION. What each command makes of its operand (spec/30_encoding.md R72, R75): clamping an immediate, sanitising
a data word, and reading the register an index names. -/

namespace Sys2Proof.Machine

/-- `zext_32`: an unsigned field zero-extended to 32 bits (R8, R55). -/
def zext32 {n : Nat} (v : BitVec n) : Word := v.setWidth 32

/-- The immediate operand `imm`, zero-extended, not sign-extended and not scaled (R72). -/
def immediate (imm : BitVec 8) : Nat := (zext32 imm).toNat

/-- OSC.WAVE's operand is out of range: above 3 (R116). -/
def waveOutOfRange (imm : BitVec 8) : Bool := decide (3 < immediate imm)

/-- OSC.WAVE's operand clamped to the nearest legal code (R116). -/
def clampWave (imm : BitVec 8) : BitVec 2 :=
  if 3 < immediate imm then 3#2 else BitVec.ofNat 2 (immediate imm)

/-- SUB.OCT's operand is out of range: 0, or above 2 (R157). -/
def octOutOfRange (imm : BitVec 8) : Bool := decide (immediate imm = 0) || decide (2 < immediate imm)

/-- SUB.OCT's operand clamped to the nearest legal shift (R157). -/
def clampOct (imm : BitVec 8) : BitVec 2 :=
  if immediate imm = 0 then 1#2
  else if 2 < immediate imm then 2#2
  else BitVec.ofNat 2 (immediate imm)

/-- A frequency or carrier operand is out of range: NaN, infinite or negative (R117, R158). -/
def hertzOutOfRange (x : F32) : Bool := !finite x || flt x f0

/-- A frequency or carrier operand as it is stored: an out-of-range value is +0.0, and so is -0.0 (R117, R158). -/
def sanitiseHertz (x : F32) : F32 :=
  if !finite x || flt x f0 then f0
  else if feq x f0 then f0
  else x

/-- A sample rate SETSR ignores: not finite, or below 1.0 (R181). -/
def rateOutOfRange (x : F32) : Bool := !finite x || flt x f1

/-- The register an index names, as READ responds with it: a binary32 register's pattern, an integer register
zero-extended (R55, R58, R182). `none` for the reserved indices 12..255. -/
def readRegister (imm : BitVec 8) (s : State) : Option Word :=
  match immediate imm with
  | 0 => some (bits s.oscPhase)
  | 1 => some (bits s.oscInc)
  | 2 => some (bits s.oscFreq)
  | 3 => some (zext32 s.oscWave)
  | 4 => some (bits s.oscOut)
  | 5 => some (bits s.subPhase)
  | 6 => some (bits s.subInc)
  | 7 => some (bits s.subCarrier)
  | 8 => some (zext32 s.subOct)
  | 9 => some (bits s.subOut)
  | 10 => some (bits s.sr)
  | 11 => some s.status
  | _ => none

end Sys2Proof.Machine
end

