-- ==== Sys2Proof/Machine/Ops.lean ====
section
/-! DEFINITION. The shared operations: detecting a condition (what the block has in place of taking an exception,
spec/60_exceptions.md R200, R205) and clearing conditions (in place of a return, R206), responding, the recompute of
spec/10_state.md R27, the phase advance, and power-on reset. -/

namespace Sys2Proof.Machine

/-- A condition is detected: its sticky STATUS bit is set, by the very command that caused it, and nothing else
changes. No state is saved, no mode changes, nothing jumps (R200, R201, R205). -/
def State.detect (c : Condition) (s : State) : State := { s with status := recordCondition c s.status }

/-- A condition is detected if `b`. -/
def State.detectIf (b : Bool) (c : Condition) (s : State) : State := if b then s.detect c else s

/-- The host's handling ends: every condition is cleared (R183, R206). -/
def State.clearConditions (s : State) : State := { s with status := clearedStatus }

/-- An illegal command pair: `STATUS.ILL <- 1`, no other change and no response (R76). -/
def performIllegal (s : State) : State := s.detect .illegalWord

/-- `resp(v)`: the word is put on the response port (R9, R53). -/
def State.respond (v : Word) (s : State) : State := { s with respPort := some v }

/-- The host takes the word on the response port, if there is one (R53, R240). -/
def State.takeResponse (s : State) : State :=
  { s with respPort := none, respTaken := s.respTaken ++ s.respPort.toList }

/-- The Nyquist limit `half`, SR times FMAX_RATIO = 0.5 (R27). -/
def nyquist (sr : F32) : F32 := fmul Config.fmaxRatio sr

/-- The recompute clamps this frequency (R27). -/
def overNyquist (hz sr : F32) : Bool := fgt hz (nyquist sr)

/-- The frequency as the recompute clamps it (R27). -/
def clampHertz (hz sr : F32) : F32 := if fgt hz (nyquist sr) then nyquist sr else hz

/-- The phase increment of a frequency at a sample rate (R27). -/
def increment (hz sr : F32) : F32 := fdiv (clampHertz hz sr) sr

/-- The sub-oscillator's frequency: the carrier one or two octaves down (R27, R151). -/
def subHertz (carrier : F32) (oct : BitVec 2) : F32 := fmul carrier (if oct = 1#2 then fHalf else fQuarter)

/-- `recompute()`: both increments from OSC_FREQ, SUB_CARRIER, SUB_OCT and SR, with STATUS.CFG where one is clamped
(R27). -/
def recompute (s : State) : State :=
  let flagged := s.detectIf
    (overNyquist s.oscFreq s.sr || overNyquist (subHertz s.subCarrier s.subOct) s.sr) .configOutOfRange
  { flagged with
    oscInc := increment s.oscFreq s.sr
    subInc := increment (subHertz s.subCarrier s.subOct) s.sr }

/-- The output guard: a non-finite sample is replaced by +0.0 (R109). -/
def guardOutput (y : F32) : F32 := if finite y then y else f0

/-- The phase advance with its wrap: one subtraction of 1.0 where the sum is 1.0 or more (R110, R111). -/
def advancePhase (t dt : F32) : F32 :=
  let p := fadd t dt
  if fge p f1 then fsub p f1 else p

/-- Power-on reset as the host drives it on a running block: every register at its reset value, the response port
empty (R230). What the host has still to send, and has taken, is the host's (notes/assumptions/3.md). -/
def State.powerOn (s : State) : State := { State.reset with cmdPort := s.cmdPort, respTaken := s.respTaken }

end Sys2Proof.Machine
end

