-- ==== Sys2Proof/Machine/Waveform.lean ====
section
/-! DEFINITION. The waveform functions of spec/40_basic_oscillator.md R100 to R108. They are pure. `sin` stands for the
parameter SIN2PI (spec/00_scope.md R7). -/

namespace Sys2Proof.Machine

/-- `sine(t) = SIN2PI(t)` (R101). -/
def sine (sin : F32 → F32) (t : F32) : F32 := sin t

/-- `tri(t)`, the naive triangle (R102). -/
def tri (t : F32) : F32 := fsub (fmul f2 (fabs (fsub (fmul f2 t) f1))) f1

/-- `sawN(t)`, the naive rising saw (R103). -/
def sawN (t : F32) : F32 := fsub (fmul f2 t) f1

/-- `pulseN(t)`, the naive pulse of width PW (R104). -/
def pulseN (t : F32) : F32 := if flt t Config.pulseWidth then f1 else fNeg1

/-- The residual after a discontinuity, `2x - x^2 - 1` in the order R105 evaluates it. -/
def blepAfter (x : F32) : F32 := fsub (fsub (fadd x x) (fmul x x)) f1

/-- The residual before a discontinuity, `x^2 + 2x + 1` in the order R105 evaluates it. -/
def blepBefore (x : F32) : F32 := fadd (fadd (fadd (fmul x x) x) x) f1

/-- `blep(t, dt)`, the PolyBLEP correction residual (R105). -/
def blep (t dt : F32) : F32 :=
  if flt t dt then blepAfter (fdiv t dt)
  else if fgt t (fsub f1 dt) then blepBefore (fdiv (fsub t f1) dt)
  else f0

/-- `frac05(t)`, the phase shifted by half a period and wrapped (R107). -/
def frac05 (t : F32) : F32 :=
  let u := fadd t fHalf
  if fge u f1 then fsub u f1 else u

/-- The saw output (R106). -/
def saw (t dt : F32) : F32 := fsub (sawN t) (blep t dt)

/-- The pulse output, corrected at both edges (R108, 90_conflicts.md C1). -/
def pulse (t dt : F32) : F32 := fsub (fadd (pulseN t) (blep t dt)) (blep (frac05 t) dt)

/-- `wave(w, t, dt)`: 0 sine, 1 triangle, 2 saw, 3 pulse (R100, R24). -/
def wave (sin : F32 → F32) (w : BitVec 2) (t dt : F32) : F32 :=
  if w = 0#2 then sine sin t
  else if w = 1#2 then tri t
  else if w = 2#2 then saw t dt
  else pulse t dt

end Sys2Proof.Machine
end

