-- ==== Sys2Proof/Machine/BasicOsc.lean ====
section
/-! DEFINITION. The basic oscillator's commands (spec/40_basic_oscillator.md). -/

namespace Sys2Proof.Machine

/-- OSC.PROC at a given SIN2PI (R110): the waveform is evaluated at the old phase and guarded, then the phase
advances. -/
def oscProcess (sin : F32 → F32) (s : State) : State :=
  let y := wave sin s.oscWave s.oscPhase s.oscInc
  ({ s.detectIf (!finite y) .nonFiniteOutput with
      oscOut := guardOutput y
      oscPhase := advancePhase s.oscPhase s.oscInc }).respond (bits (guardOutput y))

/-- OSC.PROC (R110). -/
def execOscProc (s : State) : Host.Outcome State Fault Refusal := .next (oscProcess Config.sin2pi s)

/-- OSC.RST (R115). -/
def execOscRst (s : State) : Host.Outcome State Fault Refusal := .next { s with oscPhase := f0, oscOut := f0 }

/-- OSC.WAVE imm (R116). -/
def execOscWave (imm : BitVec 8) (s : State) : Host.Outcome State Fault Refusal :=
  .next { s.detectIf (waveOutOfRange imm) .configOutOfRange with oscWave := clampWave imm }

/-- OSC.FREQ x (R117). -/
def execOscFreq (x : F32) (s : State) : Host.Outcome State Fault Refusal :=
  .next (recompute { s.detectIf (hertzOutOfRange x) .configOutOfRange with oscFreq := sanitiseHertz x })

end Sys2Proof.Machine
end

