-- ==== Sys2Proof/Machine/Control.lean ====
section
/-! DEFINITION. The control commands (spec/42_control.md). -/

namespace Sys2Proof.Machine

/-- NOP (R180). -/
def execNop (s : State) : Host.Outcome State Fault Refusal := .next s

/-- SETSR x (R181): a value that is not finite or is below 1.0 is ignored, with STATUS.CFG and no recompute. -/
def execSetsr (x : F32) (s : State) : Host.Outcome State Fault Refusal :=
  .next (if rateOutOfRange x then s.detect .configOutOfRange else recompute { s with sr := x })

/-- READ imm (R182): the register as it stood before the command; a reserved index responds 0 and sets STATUS.ILL. -/
def execRead (imm : BitVec 8) (s : State) : Host.Outcome State Fault Refusal :=
  .next (match readRegister imm s with
    | some v => s.respond v
    | none => (s.detect .reservedIndex).respond 0x00000000#32)

/-- CLRST (R183). -/
def execClrst (s : State) : Host.Outcome State Fault Refusal := .next s.clearConditions

end Sys2Proof.Machine
end

