-- ==== Sys2Proof/Machine/SubOsc.lean ====
section
/-! DEFINITION. The sub-oscillator's commands (spec/41_sub_oscillator.md). -/

namespace Sys2Proof.Machine

/-- SUB.PROC at a given SIN2PI (R150): a pure sine with no PolyBLEP (R152), evaluated at the old phase and guarded, then
the phase advances. -/
def subProcess (sin : F32 → F32) (s : State) : State :=
  let y := sin s.subPhase
  ({ s.detectIf (!finite y) .nonFiniteOutput with
      subOut := guardOutput y
      subPhase := advancePhase s.subPhase s.subInc }).respond (bits (guardOutput y))

/-- SUB.PROC (R150). -/
def execSubProc (s : State) : Host.Outcome State Fault Refusal := .next (subProcess Config.sin2pi s)

/-- SUB.RST (R155). -/
def execSubRst (s : State) : Host.Outcome State Fault Refusal := .next { s with subPhase := f0, subOut := f0 }

/-- SUB.OCT imm (R157). -/
def execSubOct (imm : BitVec 8) (s : State) : Host.Outcome State Fault Refusal :=
  .next (recompute { s.detectIf (octOutOfRange imm) .configOutOfRange with subOct := clampOct imm })

/-- SUB.CAR x (R158). -/
def execSubCar (x : F32) (s : State) : Host.Outcome State Fault Refusal :=
  .next (recompute { s.detectIf (hertzOutOfRange x) .configOutOfRange with subCarrier := sanitiseHertz x })

end Sys2Proof.Machine
end

