-- ==== Sys2Proof/Machine/Dispatch.lean ====
section
/-! DEFINITION. The dispatch from each command to its meaning (spec/30_encoding.md R73). -/

namespace Sys2Proof.Machine

/-- Perform one command. -/
def exec (i : Instr) (s : State) : Host.Outcome State Fault Refusal :=
  match i with
  | .nop => Sys2Proof.Machine.execNop s
  | .oscProc => Sys2Proof.Machine.execOscProc s
  | .oscRst => Sys2Proof.Machine.execOscRst s
  | .oscWave imm => Sys2Proof.Machine.execOscWave imm s
  | .oscFreq x => Sys2Proof.Machine.execOscFreq x s
  | .subProc => Sys2Proof.Machine.execSubProc s
  | .subRst => Sys2Proof.Machine.execSubRst s
  | .subOct imm => Sys2Proof.Machine.execSubOct imm s
  | .subCar x => Sys2Proof.Machine.execSubCar x s
  | .setsr x => Sys2Proof.Machine.execSetsr x s
  | .read imm => Sys2Proof.Machine.execRead imm s
  | .clrst => Sys2Proof.Machine.execClrst s

end Sys2Proof.Machine
end

