-- ==== Sys2Proof/Machine/Perform.lean ====
section
/-! DEFINITION. What one input of the host does to the block (spec/20_memory.md R51, R60). -/

namespace Sys2Proof.Machine

/-- A command pair: a legal one is performed (R74); an illegal one sets STATUS.ILL and nothing else (R76). -/
def performCommand (c : Command) (s : State) : Host.Outcome State Fault Refusal :=
  match decode c with
  | .ok i => exec i s
  | .error _ => .next (performIllegal s)

/-- One input of the host: a command pair, or the power-on reset input (R230). -/
def perform (inp : HostInput) (s : State) : Host.Outcome State Fault Refusal :=
  match inp with
  | .command c => performCommand c s
  | .powerOnReset => .next s.powerOn

/-- The block with nothing to perform: it is idle and keeps all its registers (R211). The host may take the response
meanwhile (R53; notes/assumptions/2.md). -/
def idle (s : State) : State := s.takeResponse

/-- The host takes the response and sends its next input, whose successors are `rest` (R53, R240). -/
def State.sendNext (rest : List HostInput) (s : State) : State := { s.takeResponse with cmdPort := rest }

end Sys2Proof.Machine
end

