-- ==== Sys2Proof/Machine/Step.lean ====
section
/-! DEFINITION. One step: the host takes the response on the port, then its next input is performed, whole
(spec/20_memory.md R53, R56, R60). -/

namespace Sys2Proof.Machine

/-- One step. -/
def step (s : State) : Host.Outcome State Fault Refusal :=
  match s.cmdPort with
  | [] => .next (idle s)
  | inp :: rest => perform inp (s.sendNext rest)

/-- The state in which the host's next input is the command pair whose bits are `w` (notes/assumptions/4.md). -/
def State.withFetchWord (s : State) (nbits w : Nat) : State :=
  { s with cmdPort := .command (tableCommand nbits w) :: s.cmdPort }

end Sys2Proof.Machine
end

