-- ==== Sys2Proof/Machine/Assembler.lean ====
section
/-! DEFINITION. The assembly language for command streams: its pseudo-instructions (spec/30_encoding.md R80) and its lines
(R79). It is outside the block: `step` does not use it. What R79 leaves open of the grammar is notes/assumptions/12.md. -/

namespace Sys2Proof.Machine

/-- The commands a pseudo-instruction stands for (R80). Two commands are two separate commands. -/
def expandPseudo : Pseudo → List Instr
  | .prepare sr => [.setsr sr]
  | .tick => [.oscProc, .subProc]
  | .voiceRst => [.oscRst, .subRst]
  | .oscSine => [.oscWave 0#8]
  | .oscTri => [.oscWave 1#8]
  | .oscSaw => [.oscWave 2#8]
  | .oscPulse => [.oscWave 3#8]
  | .subDown1 => [.subOct 1#8]
  | .subDown2 => [.subOct 2#8]
  | .subLock f => [.subCar f]

/-- Why a line does not assemble. -/
inductive AsmError where
  /-- The mnemonic is neither a command of R73 nor a pseudo-instruction of R80. -/
  | unknownMnemonic
  /-- The operand is missing, is one too many, or is not of the mnemonic's form. -/
  | badOperand
  /-- What follows the comma is not one raw data word, or the line takes no explicit data word. -/
  | badDataWord
  deriving DecidableEq, Repr

/-- A space, a tab or a carriage return parts two tokens. -/
def isBlank (c : Char) : Bool := c == ' ' || c == '\t' || c == '\r'

/-- A token's characters, as a token if there are any. -/
def flushToken (acc : List Char) : List (List Char) := if acc.isEmpty then [] else [acc]

/-- The tokens of a line whose comment is cut off: words, and commas. `acc` is the word read so far. -/
def tokensFrom (acc : List Char) : List Char → List (List Char)
  | [] => flushToken acc
  | c :: cs =>
    if isBlank c then flushToken acc ++ tokensFrom [] cs
    else if c == ',' then flushToken acc ++ [','] :: tokensFrom [] cs
    else tokensFrom (acc ++ [c]) cs

/-- The tokens of a line: comments start with `;` (R79). -/
def tokens (line : List Char) : List (List Char) := tokensFrom [] (line.takeWhile (· != ';'))

/-- A decimal digit's value. -/
def decimalDigit (c : Char) : Option Nat := if '0' ≤ c ∧ c ≤ '9' then some (c.toNat - '0'.toNat) else none

/-- A hexadecimal digit's value, in either case. -/
def hexDigit (c : Char) : Option Nat :=
  if '0' ≤ c ∧ c ≤ '9' then some (c.toNat - '0'.toNat)
  else if 'a' ≤ c ∧ c ≤ 'f' then some (c.toNat - 'a'.toNat + 10)
  else if 'A' ≤ c ∧ c ≤ 'F' then some (c.toNat - 'A'.toNat + 10)
  else none

/-- The number a run of digits writes, after `acc`. -/
def digitsFrom (digit : Char → Option Nat) (base acc : Nat) : List Char → Option Nat
  | [] => some acc
  | c :: cs =>
    match digit c with
    | some d => digitsFrom digit base (acc * base + d) cs
    | none => none

/-- The number a run of one or more digits writes. -/
def number (digit : Char → Option Nat) (base : Nat) (cs : List Char) : Option Nat :=
  if cs.isEmpty then none else digitsFrom digit base 0 cs

/-- An integer operand: decimal, or `0x` and hexadecimal (R79). -/
def integerOperand : List Char → Option Nat
  | '0' :: 'x' :: cs => number hexDigit 16 cs
  | cs => number decimalDigit 10 cs

/-- An integer operand 0..255 (R79). -/
def byteOperand (cs : List Char) : Option (BitVec 8) :=
  match integerOperand cs with
  | some n => if n < 256 then some (BitVec.ofNat 8 n) else none
  | none => none

/-- A raw pattern `#0x........`: eight hexadecimal digits (R79). -/
def rawOperand : List Char → Option Word
  | '#' :: '0' :: 'x' :: cs =>
    if cs.length = 8 then (number hexDigit 16 cs).map (BitVec.ofNat 32) else none
  | _ => none

/-- The binary32 nearest to `n / d`, ties to even (R79). -/
def nearestF32 (neg : Bool) (n d : Nat) : F32 := ofMag neg (roundMag (n * 2 ^ 149) d)

/-- A decimal literal without its sign: digits, and optionally a point and digits. -/
def decimalMagnitude (neg : Bool) (cs : List Char) : Option F32 :=
  let whole := cs.takeWhile (· != '.')
  let rest := cs.dropWhile (· != '.')
  match number decimalDigit 10 whole, rest with
  | some w, [] => some (nearestF32 neg w 1)
  | some w, _ :: frac =>
    match number decimalDigit 10 frac with
    | some f => some (nearestF32 neg (w * 10 ^ frac.length + f) (10 ^ frac.length))
    | none => none
  | none, _ => none

/-- A decimal literal, rounded to nearest with ties to even (R79). -/
def decimalOperand : List Char → Option F32
  | '-' :: cs => decimalMagnitude true cs
  | '+' :: cs => decimalMagnitude false cs
  | cs => decimalMagnitude false cs

/-- A form D operand: a special value, a raw pattern or a decimal literal (R79). -/
def dataOperand (cs : List Char) : Option F32 :=
  if cs = "+inf".toList then some 0x7F800000#32
  else if cs = "-inf".toList then some 0xFF800000#32
  else if cs = "nan".toList then some 0x7FC00000#32
  else match rawOperand cs with
    | some w => some w
    | none => decimalOperand cs

/-- A name of a table of names, numbered from 0. -/
def nameIndex (names : List String) (cs : List Char) : Option (BitVec 8) :=
  match names.findIdx? (·.toList = cs) with
  | some i => some (BitVec.ofNat 8 i)
  | none => none

/-- The names OSC.WAVE also takes, 0..3 (R79). -/
def waveNames : List String := ["sine", "tri", "saw", "pulse"]

/-- The names READ also takes: the registers in index order (R20, R79). -/
def registerNames : List String :=
  ["OSC_PHASE", "OSC_INC", "OSC_FREQ", "OSC_WAVE", "OSC_OUT", "SUB_PHASE", "SUB_INC", "SUB_CARRIER", "SUB_OCT",
    "SUB_OUT", "SR", "STATUS"]

/-- A form I operand: an integer, or one of the command's names (R79). -/
def immOperand (names : List String) (cs : List Char) : Option (BitVec 8) :=
  match nameIndex names cs with
  | some v => some v
  | none => byteOperand cs

/-- The mnemonics with no operand, each with its commands (R73, R80). -/
def asmNone : List (String × List Instr) :=
  [ ("NOP", [.nop]), ("OSC.PROC", [.oscProc]), ("OSC.RST", [.oscRst]), ("SUB.PROC", [.subProc]),
    ("SUB.RST", [.subRst]), ("CLRST", [.clrst]), ("TICK", expandPseudo .tick), ("VOICE.RST", expandPseudo .voiceRst),
    ("OSC.SINE", expandPseudo .oscSine), ("OSC.TRI", expandPseudo .oscTri), ("OSC.SAW", expandPseudo .oscSaw),
    ("OSC.PULSE", expandPseudo .oscPulse), ("SUB.DOWN1", expandPseudo .subDown1),
    ("SUB.DOWN2", expandPseudo .subDown2) ]

/-- The mnemonics with an immediate operand (R73). -/
def asmImm : List (String × List String × (BitVec 8 → List Instr)) :=
  [ ("OSC.WAVE", waveNames, fun v => [.oscWave v]), ("SUB.OCT", [], fun v => [.subOct v]),
    ("READ", registerNames, fun v => [.read v]) ]

/-- The mnemonics with a data operand (R73, R80). -/
def asmData : List (String × (F32 → List Instr)) :=
  [ ("OSC.FREQ", fun x => [.oscFreq x]), ("SUB.CAR", fun x => [.subCar x]), ("SETSR", fun x => [.setsr x]),
    ("PREPARE", fun x => expandPseudo (.prepare x)), ("SUB.LOCK", fun x => expandPseudo (.subLock x)) ]

/-- The commands of a mnemonic and its operand tokens (R79, R80). -/
def asmInstrs (m : List Char) (operands : List (List Char)) : Except AsmError (List Instr) :=
  match asmNone.find? (·.1.toList = m), asmImm.find? (·.1.toList = m), asmData.find? (·.1.toList = m) with
  | some row, _, _ => if operands.isEmpty then .ok row.2 else .error .badOperand
  | none, some row, _ =>
    match operands with
    | [t] =>
      match immOperand row.2.1 t with
      | some v => .ok (row.2.2 v)
      | none => .error .badOperand
    | _ => .error .badOperand
  | none, none, some row =>
    match operands with
    | [t] =>
      match dataOperand t with
      | some x => .ok (row.2 x)
      | none => .error .badOperand
    | _ => .error .badOperand
  | none, none, none => .error .unknownMnemonic

/-- The command with its ignored data word written explicitly: forms N and I only (R79). -/
def withDataWord (dw : Word) (i : Instr) : Except AsmError Command :=
  match i.form with
  | .n => .ok ⟨(encode i).cw, dw⟩
  | .i => .ok ⟨(encode i).cw, dw⟩
  | .d => .error .badDataWord

/-- The listing of a line's commands; `after` is what stands after a comma, if there is one (R79). -/
def asmListing (is : List Instr) (after : Option (List (List Char))) : Except AsmError (List Command) :=
  match after, is with
  | none, _ => .ok (is.map encode)
  | some [t], [i] =>
    match rawOperand t with
    | some dw => (withDataWord dw i).map ([·])
    | none => .error .badDataWord
  | some _, _ => .error .badDataWord

/-- One line of assembly: the command pairs of its listing, none for an empty or comment line (R79, R80). -/
def assembleLine (line : List Char) : Except AsmError (List Command) :=
  match tokens line with
  | [] => .ok []
  | m :: rest =>
    let operands := rest.takeWhile (· != [','])
    let after := match rest.dropWhile (· != [',']) with
      | [] => none
      | _ :: ts => some ts
    match asmInstrs m operands with
    | .ok is => asmListing is after
    | .error e => .error e

/-- A text of assembly, one command a line (R79). -/
def assembleLines : List (List Char) → Except AsmError (List Command)
  | [] => .ok []
  | l :: ls =>
    match assembleLine l, assembleLines ls with
    | .ok cs, .ok rest => .ok (cs ++ rest)
    | .error e, _ => .error e
    | .ok _, .error e => .error e

end Sys2Proof.Machine
end

