-- ==== Sys2Proof/Safety.lean ====
section
/-! DEFINITION. What claims are stated in: the legal contents of the registers (spec/10_state.md R20, R35), the real value
of a binary32 pattern (spec/00_scope.md R8, R9), the named property of SIN2PI (R7), and the frequency estimate of
spec/92_eei_decisions.md D38. -/

namespace Sys2Proof.Machine

/-! ### The legal contents (R20, R35) -/

/-- -0.0, which no phase, frequency or carrier holds (R20, D33). -/
def negZero : F32 := 0x80000000#32

/-- A phase's legal contents: `0.0 <= v < 1.0`, never -0.0 (R20). -/
def legalPhase (v : F32) : Bool := fle f0 v && flt v f1 && v != negZero

/-- An increment's legal contents: `0.0 <= v <= 0.5` (R20). -/
def legalIncrement (v : F32) : Bool := fle f0 v && fle v fHalf

/-- A frequency's or carrier's legal contents: finite, `>= 0.0`, never -0.0 (R20). -/
def legalHertz (v : F32) : Bool := finite v && fle f0 v && v != negZero

/-- A sample rate's legal contents: finite, `>= 1.0` (R20). -/
def legalRate (v : F32) : Bool := finite v && fle f1 v

/-- SUB_OCT's legal contents: 1 or 2 (R20). -/
def legalOct (v : BitVec 2) : Bool := v == 1#2 || v == 2#2

/-- STATUS's legal contents: bits 31:3 zero (R20, R29). -/
def legalStatus (v : Word) : Bool := v &&& 0xFFFFFFF8#32 == 0#32

/-- Every register's contents are legal (R20, R35). OSC_WAVE's two bits hold 0..3 whatever they are. -/
def State.legal (s : State) : Bool :=
  legalPhase s.oscPhase && legalIncrement s.oscInc && legalHertz s.oscFreq && finite s.oscOut &&
  legalPhase s.subPhase && legalIncrement s.subInc && legalHertz s.subCarrier && legalOct s.subOct &&
  finite s.subOut && legalRate s.sr && legalStatus s.status

/-- The increment of a frequency at a sample rate as R22 writes it. -/
def incrementByMin (hz sr : F32) : F32 := fdiv (fmin hz (fmul fHalf sr)) sr

/-- The sub-oscillator's frequency as R151 writes it. -/
def subHertzByOct (carrier : F32) (oct : BitVec 2) : F32 :=
  if oct = 1#2 then fmul carrier fHalf else fmul carrier fQuarter

/-- Both increments are what the recompute gives for the registers they depend on (R22, R27). -/
def State.incrementsDerived (s : State) : Prop :=
  s.oscInc = incrementByMin s.oscFreq s.sr ∧ s.subInc = incrementByMin (subHertzByOct s.subCarrier s.subOct) s.sr

/-- The responses the block has made so far, in the order they left it (R53). -/
def State.responses (s : State) : List Word := s.respTaken ++ s.respPort.toList

/-- The block goes on, with legal registers: what R35 and R200 promise of every step. -/
def safeStep (s : State) : Prop := ∃ t, step s = .next t ∧ t.legal = true

/-! ### Real values (R8, R9) -/

/-- The value of a finite pattern (R8). -/
def ratOf (w : F32) : ℚ := (exactUnits w : ℚ) / 2 ^ 149

/-- `w` is the binary32 value nearest to the rational `q`, ties to even (R9). -/
def IsNearestRat (q : ℚ) (w : F32) : Prop :=
  finite w = true ∧
  ∀ v : F32, finite v = true →
    |ratOf w - q| ≤ |ratOf v - q| ∧ (|ratOf w - q| = |ratOf v - q| → ratOf v = ratOf w ∨ mag w % 2 = 0)

/-- `w` is the binary32 value nearest to the real `r`, ties to even; a zero is +0.0 (R7, notes/assumptions/10.md). -/
def IsNearestReal (r : ℝ) (w : F32) : Prop :=
  finite w = true ∧ w ≠ negZero ∧
  ∀ v : F32, finite v = true →
    |(ratOf w : ℝ) - r| ≤ |(ratOf v : ℝ) - r| ∧
      (|(ratOf w : ℝ) - r| = |(ratOf v : ℝ) - r| → ratOf v = ratOf w ∨ mag w % 2 = 0)

/-- `SIN2PI_REF` at one argument: the result is the binary32 value nearest to sin(2*pi*x) (R7). -/
def Sin2PiRefAt (sin : F32 → F32) (x : F32) : Prop :=
  IsNearestReal (Real.sin (2 * Real.pi * (ratOf x : ℝ))) (sin x)

/-- `SIN2PI_REF`: an evaluator equals the reference instance at every finite argument (R7). -/
def Sin2PiRef (sin : F32 → F32) : Prop := ∀ x, finite x = true → Sin2PiRefAt sin x

/-! ### The frequency estimate of the end-to-end property (D38, R113) -/

/-- The positions of the sign changes of a list of samples, the first at position `i`, interpolated linearly. -/
def crossings (i : ℚ) : List ℚ → List ℚ
  | a :: b :: rest => (if a * b < 0 then [i + a / (a - b)] else []) ++ crossings (i + 1) (b :: rest)
  | _ => []

/-- `f = ((n - 1) / 2) * SR / (c_last - c_first)` over `n` sign changes; none where there are fewer than two (D38). -/
def estimatedHertz (sr : ℚ) (samples : List ℚ) : Option ℚ :=
  let c := crossings 0 samples
  match c.head?, c.getLast? with
  | some first, some last =>
    if first < last then some (((c.length : ℚ) - 1) / 2 * sr / (last - first)) else none
  | _, _ => none

end Sys2Proof.Machine
end

