-- ==== Sys2Proof/Certificates/Slice0/Obligations.lean ====
section
/-! DEFINITION. The statements for the provers, taken from the numbered rules of spec/. Each says which rule it states. -/

open Sys2Proof Sys2Proof.Machine

/-! ### Encoding (spec/30_encoding.md) -/

/-- Decoding an encoded command gives it back, at every value of its operand (R70 to R73). -/
def Obligations.DecodeEncodeRoundTrip : Prop := ∀ i : Instr, decode (encode i) = .ok i

/-- R73: each row of the opcode map, as match and mask; at most one row matches; every other word is illegal. -/
def Obligations.OpcodeMapRows : Prop :=
  (∀ cw dw : Word,
    (cw &&& 0xFFFFFFFF#32 = 0x00000000#32 → decode ⟨cw, dw⟩ = .ok .nop) ∧
    (cw &&& 0xFFFFFFFF#32 = 0x00000001#32 → decode ⟨cw, dw⟩ = .ok .oscProc) ∧
    (cw &&& 0xFFFFFFFF#32 = 0x00000002#32 → decode ⟨cw, dw⟩ = .ok .oscRst) ∧
    (cw &&& 0xFFFF00FF#32 = 0x00000003#32 → decode ⟨cw, dw⟩ = .ok (.oscWave (BitVec.ofNat 8 (cw.toNat / 256)))) ∧
    (cw &&& 0xFFFFFFFF#32 = 0x00000004#32 → decode ⟨cw, dw⟩ = .ok (.oscFreq dw)) ∧
    (cw &&& 0xFFFFFFFF#32 = 0x00000011#32 → decode ⟨cw, dw⟩ = .ok .subProc) ∧
    (cw &&& 0xFFFFFFFF#32 = 0x00000012#32 → decode ⟨cw, dw⟩ = .ok .subRst) ∧
    (cw &&& 0xFFFF00FF#32 = 0x00000013#32 → decode ⟨cw, dw⟩ = .ok (.subOct (BitVec.ofNat 8 (cw.toNat / 256)))) ∧
    (cw &&& 0xFFFFFFFF#32 = 0x00000014#32 → decode ⟨cw, dw⟩ = .ok (.subCar dw)) ∧
    (cw &&& 0xFFFFFFFF#32 = 0x00000020#32 → decode ⟨cw, dw⟩ = .ok (.setsr dw)) ∧
    (cw &&& 0xFFFF00FF#32 = 0x00000021#32 → decode ⟨cw, dw⟩ = .ok (.read (BitVec.ofNat 8 (cw.toNat / 256)))) ∧
    (cw &&& 0xFFFFFFFF#32 = 0x00000022#32 → decode ⟨cw, dw⟩ = .ok .clrst) ∧
    ((∀ r ∈ opcodeTable, r.selects cw = false) → ∃ e, decode ⟨cw, dw⟩ = .error e)) ∧
  (∀ cw : Word, ∀ r₁ ∈ opcodeTable, ∀ r₂ ∈ opcodeTable,
    r₁.selects cw = true → r₂.selects cw = true → r₁ = r₂) ∧
  opcodeTable.map (fun r => (r.mnemonic, r.form, r.matchBits, r.mask)) =
    [("NOP", .n, 0x00000000#32, 0xFFFFFFFF#32), ("OSC.PROC", .n, 0x00000001#32, 0xFFFFFFFF#32),
     ("OSC.RST", .n, 0x00000002#32, 0xFFFFFFFF#32), ("OSC.WAVE", .i, 0x00000003#32, 0xFFFF00FF#32),
     ("OSC.FREQ", .d, 0x00000004#32, 0xFFFFFFFF#32), ("SUB.PROC", .n, 0x00000011#32, 0xFFFFFFFF#32),
     ("SUB.RST", .n, 0x00000012#32, 0xFFFFFFFF#32), ("SUB.OCT", .i, 0x00000013#32, 0xFFFF00FF#32),
     ("SUB.CAR", .d, 0x00000014#32, 0xFFFFFFFF#32), ("SETSR", .d, 0x00000020#32, 0xFFFFFFFF#32),
     ("READ", .i, 0x00000021#32, 0xFFFF00FF#32), ("CLRST", .n, 0x00000022#32, 0xFFFFFFFF#32)]

/-- R74: a word decodes exactly when it matches a row, whatever DW is, and otherwise it is one of the three cases. -/
def Obligations.LegalExactlyWhenARowMatches : Prop :=
  ∀ cw dw : Word,
    ((∃ i, decode ⟨cw, dw⟩ = .ok i) ↔ ∃ r ∈ opcodeTable, r.selects cw = true) ∧
    ((∃ e, decode ⟨cw, dw⟩ = .error e) ↔
      cw.toNat % 256 ∉ [0x00, 0x01, 0x02, 0x03, 0x04, 0x11, 0x12, 0x13, 0x14, 0x20, 0x21, 0x22] ∨
      cw.toNat / 65536 ≠ 0 ∨
      (cw.toNat % 256 ∈ [0x00, 0x01, 0x02, 0x04, 0x11, 0x12, 0x14, 0x20, 0x22] ∧ cw.toNat / 256 % 256 ≠ 0))

/-- R77: every reserved opcode is illegal, whatever the other fields are, and is not a no-op: it sets STATUS.ILL. -/
def Obligations.ReservedOpcodesSetIll : Prop :=
  ∀ (c : Command) (s : State) (rest : List HostInput),
    (0x05 ≤ c.cw.toNat % 256 ∧ c.cw.toNat % 256 ≤ 0x10) ∨ (0x15 ≤ c.cw.toNat % 256 ∧ c.cw.toNat % 256 ≤ 0x1F) ∨
      0x23 ≤ c.cw.toNat % 256 →
    s.cmdPort = .command c :: rest →
    (∃ e, decode c = .error e) ∧ ∃ t, step s = .next t ∧ t.ill = true ∧ t.respPort = none ∧ t.cmdPort = rest

/-- R76: an illegal command pair sets STATUS.ILL, changes no other register and emits no response (the port is empty after
it, since the host takes an older response first, R53), and the block's next command is the host's next. -/
def Obligations.IllegalPairSetsOnlyIll : Prop :=
  ∀ (c : Command) (s : State) (rest : List HostInput), legalWord c.cw = false → s.cmdPort = .command c :: rest →
    ∃ t, step s = .next t ∧ t.respPort = none ∧ t.cmdPort = rest ∧
      { t with respPort := s.respPort, cmdPort := s.cmdPort, respTaken := s.respTaken } =
        { s with status := s.status ||| 0x00000002#32 }

/-- R81: the worked encodings, assembled and decoded. -/
def Obligations.WorkedEncodings : Prop :=
  assembleLine "OSC.FREQ 440.0".toList = .ok [⟨0x00000004#32, 0x43DC0000#32⟩] ∧
  decode ⟨0x00000004#32, 0x43DC0000#32⟩ = .ok (.oscFreq 0x43DC0000#32) ∧
  assembleLine "OSC.WAVE saw".toList = .ok [⟨0x00000203#32, 0x00000000#32⟩] ∧
  decode ⟨0x00000203#32, 0x00000000#32⟩ = .ok (.oscWave 2#8) ∧
  assembleLine "SUB.OCT 2".toList = .ok [⟨0x00000213#32, 0x00000000#32⟩] ∧
  decode ⟨0x00000213#32, 0x00000000#32⟩ = .ok (.subOct 2#8) ∧
  assembleLine "SETSR 48000.0".toList = .ok [⟨0x00000020#32, 0x473B8000#32⟩] ∧
  decode ⟨0x00000020#32, 0x473B8000#32⟩ = .ok (.setsr 0x473B8000#32) ∧
  assembleLine "READ STATUS".toList = .ok [⟨0x00000B21#32, 0x00000000#32⟩] ∧
  decode ⟨0x00000B21#32, 0x00000000#32⟩ = .ok (.read 11#8) ∧
  ∀ dw : Word,
    decode ⟨0x00010001#32, dw⟩ = .error .rsvNotZero ∧
    decode ⟨0x00000101#32, dw⟩ = .error .immNotZero ∧
    decode ⟨0x00000005#32, dw⟩ = .error .reservedOpcode

/-- R80: each pseudo-instruction assembles to the commands of its expansion. -/
def Obligations.PseudoInstructionsExpand : Prop :=
  assembleLine "PREPARE 44100.0".toList = assembleLine "SETSR 44100.0".toList ∧
  assembleLine "TICK".toList = .ok [encode .oscProc, encode .subProc] ∧
  assembleLine "VOICE.RST".toList = .ok [encode .oscRst, encode .subRst] ∧
  assembleLine "OSC.SINE".toList = .ok [encode (.oscWave 0#8)] ∧
  assembleLine "OSC.TRI".toList = .ok [encode (.oscWave 1#8)] ∧
  assembleLine "OSC.SAW".toList = .ok [encode (.oscWave 2#8)] ∧
  assembleLine "OSC.PULSE".toList = .ok [encode (.oscWave 3#8)] ∧
  assembleLine "SUB.DOWN1".toList = .ok [encode (.subOct 1#8)] ∧
  assembleLine "SUB.DOWN2".toList = .ok [encode (.subOct 2#8)] ∧
  assembleLine "SUB.LOCK 440.0".toList = assembleLine "SUB.CAR 440.0".toList ∧
  ∀ x : F32, expandPseudo (.prepare x) = [.setsr x] ∧ expandPseudo (.subLock x) = [.subCar x]

/-- A host's byte buffer gives back the commands stored in it, CW before DW (R70), at each of the model's two byte orders.
R52 leaves the byte order open and names no set of orders: that there are two is the model's choice
(notes/assumptions/7.md). -/
def Obligations.HostBytesRoundTrip : Prop :=
  ∀ (o : ByteOrder) (c : Command) (rest : List Byte), commandOfBytes o (bytesOfCommand o c ++ rest) = some (c, rest)

/-! ### What each command does -/

/-- R180: NOP, with its encodings and its assembly. -/
def Obligations.NopResult : Prop :=
  (∀ dw : Word, decode ⟨0x00000000#32, dw⟩ = .ok .nop) ∧
  (∀ cw dw : Word, cw.toNat % 256 = 0 → cw ≠ 0x00000000#32 → ∃ e, decode ⟨cw, dw⟩ = .error e) ∧
  (∀ s : State, exec .nop s = .next s) ∧
  assembleLine "NOP".toList = .ok [⟨0x00000000#32, 0x00000000#32⟩]

/-- R110: OSC.PROC, with its encoding: the waveform at the old phase, guarded, then the phase advances and wraps. -/
def Obligations.OscProcResult : Prop :=
  (∀ dw : Word, decode ⟨0x00000001#32, dw⟩ = .ok .oscProc) ∧
  ∀ s : State,
    let y := wave Config.sin2pi s.oscWave s.oscPhase s.oscInc
    let p := fadd s.oscPhase s.oscInc
    exec .oscProc s = .next { s with
      oscOut := if finite y then y else 0x00000000#32
      status := if finite y then s.status else s.status ||| 0x00000004#32
      oscPhase := if fge p 0x3F800000#32 then fsub p 0x3F800000#32 else p
      respPort := some (if finite y then y else 0x00000000#32) }

/-- R110, corner cases: at dt = 0.0 the phase does not move; at dt = 0.5 it alternates, and saw and pulse from phase 0
are 0.0; a sum that rounds to exactly 1.0 wraps to 0.0; a correctly rounded sine is 0.0 at phase 0.5. -/
def Obligations.OscProcCornerCases : Prop :=
  (∀ s : State, legalPhase s.oscPhase = true → s.oscInc = f0 →
    ∃ t, exec .oscProc s = .next t ∧ t.oscPhase = s.oscPhase) ∧
  (∀ s : State, s.oscPhase = f0 → s.oscInc = fHalf →
    ∃ t, exec .oscProc s = .next t ∧ t.oscPhase = fHalf ∧
      (s.oscWave = 2#2 ∨ s.oscWave = 3#2 → t.respPort = some 0x00000000#32)) ∧
  (∀ s : State, s.oscPhase = fHalf → s.oscInc = fHalf →
    ∃ t, exec .oscProc s = .next t ∧ t.oscPhase = f0 ∧
      (s.oscWave = 2#2 ∨ s.oscWave = 3#2 → t.respPort = some 0x00000000#32)) ∧
  (∀ s : State, fadd s.oscPhase s.oscInc = f1 → ∃ t, exec .oscProc s = .next t ∧ t.oscPhase = f0) ∧
  (∀ (sin : F32 → F32) (s : State), Sin2PiRef sin → s.oscWave = 0#2 → s.oscPhase = fHalf →
    (oscProcess sin s).respPort = some 0x00000000#32)

/-- OSC.RST, with its encoding, from the pseudocode of R115; the next saw sample is 0.0 where dt > 0. That OSC_OUT is cleared
at phase 0 too, where R115 also says that OSC.RST leaves the block unchanged, is the model's reading
(notes/assumptions/16.md). -/
def Obligations.OscRstResult : Prop :=
  (∀ dw : Word, decode ⟨0x00000002#32, dw⟩ = .ok .oscRst) ∧
  (∀ s : State, exec .oscRst s = .next { s with oscPhase := 0x00000000#32, oscOut := 0x00000000#32 }) ∧
  (∀ s t : State, exec .oscRst s = .next t →
    t.oscFreq = s.oscFreq ∧ t.oscInc = s.oscInc ∧ t.oscWave = s.oscWave ∧ t.sr = s.sr) ∧
  ∀ s : State, s.oscWave = 2#2 → legalIncrement s.oscInc = true → flt f0 s.oscInc = true →
    ∃ t u, exec .oscRst s = .next t ∧ exec .oscProc t = .next u ∧ u.respPort = some 0x00000000#32

/-- R116: OSC.WAVE, with its encoding; a code above 3 becomes 3 and sets STATUS.CFG. -/
def Obligations.OscWaveResult : Prop :=
  (∀ (imm : BitVec 8) (dw : Word), decode ⟨0x00000003#32 ||| (imm.setWidth 32 <<< 8), dw⟩ = .ok (.oscWave imm)) ∧
  (∀ (imm : BitVec 8) (s : State), imm.toNat ≤ 3 →
    exec (.oscWave imm) s = .next { s with oscWave := imm.setWidth 2 }) ∧
  (∀ (imm : BitVec 8) (s : State), 3 < imm.toNat →
    exec (.oscWave imm) s = .next { s with oscWave := 3#2, status := s.status ||| 0x00000001#32 })

/-- R117: OSC.FREQ, with its encoding: the operand is sanitised, then both increments are recomputed. A frequency above
SR/2 is kept and its increment is 0.5; the recompute of SUB_INC gives the same value again. -/
def Obligations.OscFreqResult : Prop :=
  (∀ dw : Word, decode ⟨0x00000004#32, dw⟩ = .ok (.oscFreq dw)) ∧
  (∀ (x : F32) (s : State), exec (.oscFreq x) s = .next (recompute { s with
    oscFreq := if !finite x || flt x 0x00000000#32 then 0x00000000#32
      else if feq x 0x00000000#32 then 0x00000000#32 else x
    status := if !finite x || flt x 0x00000000#32 then s.status ||| 0x00000001#32 else s.status })) ∧
  (∀ (x : F32) (s : State), s.legal = true → s.incrementsDerived →
    ∃ t, exec (.oscFreq x) s = .next t ∧ t.subInc = s.subInc) ∧
  (∀ (x : F32) (s : State), legalRate s.sr = true → finite x = true → fgt x (fmul 0x3F000000#32 s.sr) = true →
    ∃ t, exec (.oscFreq x) s = .next t ∧ t.oscFreq = x ∧ t.oscInc = 0x3F000000#32 ∧ t.cfg = true) ∧
  (∀ s : State, s.sr = 0x472C4400#32 → ∃ t, exec (.oscFreq 0x46EA6000#32) s = .next t ∧
    t.oscFreq = 0x46EA6000#32 ∧ t.oscInc = 0x3F000000#32 ∧ t.cfg = true)

/-- R150: SUB.PROC, with its encoding: SIN2PI at the old phase, guarded, then the phase advances and wraps. -/
def Obligations.SubProcResult : Prop :=
  (∀ dw : Word, decode ⟨0x00000011#32, dw⟩ = .ok .subProc) ∧
  ∀ s : State,
    let y := Config.sin2pi s.subPhase
    let p := fadd s.subPhase s.subInc
    exec .subProc s = .next { s with
      subOut := if finite y then y else 0x00000000#32
      status := if finite y then s.status else s.status ||| 0x00000004#32
      subPhase := if fge p 0x3F800000#32 then fsub p 0x3F800000#32 else p
      respPort := some (if finite y then y else 0x00000000#32) }

/-- R150, the example: from SUB_PHASE = 0.0 with SUB_INC = 0.125, four samples of a correctly rounded sine, and the phase
they leave. -/
def Obligations.SubProcReferenceExample : Prop :=
  ∀ (sin : F32 → F32) (s : State), Sin2PiRef sin → s.subPhase = 0x00000000#32 → s.subInc = 0x3E000000#32 →
    let s1 := subProcess sin s
    let s2 := subProcess sin s1
    let s3 := subProcess sin s2
    let s4 := subProcess sin s3
    s1.respPort = some 0x00000000#32 ∧ s2.respPort = some 0x3F3504F3#32 ∧ s3.respPort = some 0x3F800000#32 ∧
      s4.respPort = some 0x3F3504F3#32 ∧ s4.subPhase = 0x3F000000#32

/-- R155: SUB.RST, with its encoding; the next sample of a correctly rounded sine is 0.0. -/
def Obligations.SubRstResult : Prop :=
  (∀ dw : Word, decode ⟨0x00000012#32, dw⟩ = .ok .subRst) ∧
  (∀ s : State, exec .subRst s = .next { s with subPhase := 0x00000000#32, subOut := 0x00000000#32 }) ∧
  ∀ (sin : F32 → F32) (s : State), Sin2PiRef sin →
    ∃ t, exec .subRst s = .next t ∧ (subProcess sin t).respPort = some 0x00000000#32

/-- R157: SUB.OCT, with its encoding: 0 becomes 1 and values above 2 become 2, each with STATUS.CFG; then both increments
are recomputed. -/
def Obligations.SubOctResult : Prop :=
  (∀ (imm : BitVec 8) (dw : Word), decode ⟨0x00000013#32 ||| (imm.setWidth 32 <<< 8), dw⟩ = .ok (.subOct imm)) ∧
  (∀ s : State, exec (.subOct 0#8) s =
    .next (recompute { s with subOct := 1#2, status := s.status ||| 0x00000001#32 })) ∧
  (∀ (imm : BitVec 8) (s : State), imm = 1#8 ∨ imm = 2#8 →
    exec (.subOct imm) s = .next (recompute { s with subOct := imm.setWidth 2 })) ∧
  (∀ (imm : BitVec 8) (s : State), 2 < imm.toNat → exec (.subOct imm) s =
    .next (recompute { s with subOct := 2#2, status := s.status ||| 0x00000001#32 })) ∧
  (∀ s : State, s.sr = 0x472C4400#32 → s.subCarrier = 0x435C0000#32 →
    ∃ t, exec (.subOct 2#8) s = .next t ∧ t.subInc = 0x3AA377EE#32)

/-- R158: SUB.CAR, with its encoding: the operand is sanitised, then both increments are recomputed. The clamp applies to
the shifted frequency, and the recompute of OSC_INC gives the same value again. -/
def Obligations.SubCarResult : Prop :=
  (∀ dw : Word, decode ⟨0x00000014#32, dw⟩ = .ok (.subCar dw)) ∧
  (∀ (x : F32) (s : State), exec (.subCar x) s = .next (recompute { s with
    subCarrier := if !finite x || flt x 0x00000000#32 then 0x00000000#32
      else if feq x 0x00000000#32 then 0x00000000#32 else x
    status := if !finite x || flt x 0x00000000#32 then s.status ||| 0x00000001#32 else s.status })) ∧
  (∀ (x : F32) (s : State), s.legal = true → s.incrementsDerived →
    ∃ t, exec (.subCar x) s = .next t ∧ t.oscInc = s.oscInc) ∧
  (∀ s : State, s.sr = 0x472C4400#32 → s.subOct = 1#2 →
    ∃ t, exec (.subCar 0x43DC0000#32) s = .next t ∧ t.subCarrier = 0x43DC0000#32 ∧ t.subInc = 0x3BA377EE#32)

/-- R181: SETSR, with its encoding: a value that is not finite or is below 1.0 is ignored with STATUS.CFG; any other is
stored and both increments are recomputed. A frequency above the new SR/2 keeps its value and gets the increment 0.5. -/
def Obligations.SetsrResult : Prop :=
  (∀ dw : Word, decode ⟨0x00000020#32, dw⟩ = .ok (.setsr dw)) ∧
  (∀ (x : F32) (s : State), finite x = false ∨ flt x 0x3F800000#32 = true →
    exec (.setsr x) s = .next { s with status := s.status ||| 0x00000001#32 }) ∧
  (∀ (x : F32) (s : State), finite x = true → flt x 0x3F800000#32 = false →
    exec (.setsr x) s = .next (recompute { s with sr := x })) ∧
  (∀ (x : F32) (s : State), finite x = true → flt x 0x3F800000#32 = false →
    ∃ t, exec (.setsr x) s = .next t ∧ t.oscFreq = s.oscFreq ∧ t.subCarrier = s.subCarrier ∧
      t.oscPhase = s.oscPhase ∧ t.subPhase = s.subPhase ∧
      (fgt s.oscFreq (fmul 0x3F000000#32 x) = true → t.oscInc = 0x3F000000#32 ∧ t.cfg = true)) ∧
  (∀ s : State, s.oscFreq = 0x43DC0000#32 →
    ∃ t, exec (.setsr 0x473B8000#32) s = .next t ∧ t.sr = 0x473B8000#32 ∧ t.oscInc = 0x3C162FC9#32)

/-- R182: READ, with its encoding: each index responds with its register, a reserved index with 0 and STATUS.ILL; no
register changes otherwise, and STATUS reads with bits 31:3 zero; after OSC.WAVE 9 it reads 1. -/
def Obligations.ReadResult : Prop :=
  (∀ (imm : BitVec 8) (dw : Word), decode ⟨0x00000021#32 ||| (imm.setWidth 32 <<< 8), dw⟩ = .ok (.read imm)) ∧
  (∀ (s : State) (k : Nat) (v : Word),
    [s.oscPhase, s.oscInc, s.oscFreq, s.oscWave.setWidth 32, s.oscOut, s.subPhase, s.subInc, s.subCarrier,
      s.subOct.setWidth 32, s.subOut, s.sr, s.status][k]? = some v →
    exec (.read (BitVec.ofNat 8 k)) s = .next { s with respPort := some v }) ∧
  (∀ (imm : BitVec 8) (s : State), 12 ≤ imm.toNat →
    exec (.read imm) s = .next { s with respPort := some 0x00000000#32, status := s.status ||| 0x00000002#32 }) ∧
  (∀ s : State, s.legal = true → ∃ t v, exec (.read 11#8) s = .next t ∧ t.respPort = some v ∧ v.toNat < 8) ∧
  (∀ s : State, s.status = 0x00000000#32 → ∃ t u, exec (.oscWave 9#8) s = .next t ∧ exec (.read 11#8) t = .next u ∧
    u.respPort = some 0x00000001#32)

/-- R183: CLRST, with its encoding; an illegal CLRST word does not clear STATUS but sets ILL. -/
def Obligations.ClrstResult : Prop :=
  (∀ dw : Word, decode ⟨0x00000022#32, dw⟩ = .ok .clrst) ∧
  (∀ s : State, exec .clrst s = .next { s with status := 0x00000000#32 }) ∧
  (∀ (c : Command) (s : State) (rest : List HostInput), c.cw.toNat % 256 = 0x22 → c.cw ≠ 0x00000022#32 →
    s.cmdPort = .command c :: rest → ∃ t, step s = .next t ∧ t.status = s.status ||| 0x00000002#32)

/-- R27: the recompute, and that every write to OSC_FREQ, SUB_CARRIER, SUB_OCT or SR is followed by it. -/
def Obligations.RecomputeBothIncrements : Prop :=
  (∀ s : State,
    let half := fmul 0x3F000000#32 s.sr
    let sub := fmul s.subCarrier (if s.subOct = 1#2 then 0x3F000000#32 else 0x3E800000#32)
    recompute s = { s with
      oscInc := fdiv (if fgt s.oscFreq half then half else s.oscFreq) s.sr
      subInc := fdiv (if fgt sub half then half else sub) s.sr
      status := if fgt s.oscFreq half || fgt sub half then s.status ||| 0x00000001#32 else s.status }) ∧
  ∀ (i : Instr) (s : State),
    (∃ x, i = .oscFreq x) ∨ (∃ x, i = .subCar x) ∨ (∃ imm, i = .subOct imm) ∨
      (∃ x, i = .setsr x ∧ finite x = true ∧ flt x 0x3F800000#32 = false) →
    ∃ t, exec i s = .next t ∧ recompute t = t ∧ t.oscPhase = s.oscPhase ∧ t.subPhase = s.subPhase

/-! ### The waveforms (spec/40_basic_oscillator.md R100 to R112) -/

/-- R100: which function each waveform code selects, and that sine and triangle get no correction. -/
def Obligations.WaveSelectsByCode : Prop :=
  ∀ (sin : F32 → F32) (t dt : F32),
    wave sin 0#2 t dt = sin t ∧
    wave sin 1#2 t dt = fsub (fmul 0x40000000#32 (fabs (fsub (fmul 0x40000000#32 t) 0x3F800000#32))) 0x3F800000#32 ∧
    wave sin 2#2 t dt = fsub (fsub (fmul 0x40000000#32 t) 0x3F800000#32) (blep t dt) ∧
    wave sin 3#2 t dt =
      fsub (fadd (if flt t 0x3F000000#32 then 0x3F800000#32 else 0xBF800000#32) (blep t dt)) (blep (frac05 t) dt)

/-- R101: the sine waveform is SIN2PI of the phase; a correctly rounded SIN2PI has these values at the quarters. -/
def Obligations.ReferenceSineAtQuarters : Prop :=
  (∀ (sin : F32 → F32) (t dt : F32), wave sin 0#2 t dt = sin t) ∧
  ∀ sin : F32 → F32, Sin2PiRef sin →
    sine sin 0x00000000#32 = 0x00000000#32 ∧ sine sin 0x3E800000#32 = 0x3F800000#32 ∧
    sine sin 0x3F000000#32 = 0x00000000#32 ∧ sine sin 0x3F400000#32 = 0xBF800000#32

/-- R102 to R104: on a legal phase the naive waveforms are values in [-1, 1]. -/
def Obligations.NaiveWaveformsStayInRange : Prop :=
  ∀ t : F32, legalPhase t = true →
    (finite (tri t) = true ∧ -1 ≤ ratOf (tri t) ∧ ratOf (tri t) ≤ 1) ∧
    (finite (sawN t) = true ∧ -1 ≤ ratOf (sawN t) ∧ ratOf (sawN t) ≤ 1) ∧
    (ratOf t < 1 / 2 → pulseN t = 0x3F800000#32) ∧ (1 / 2 ≤ ratOf t → pulseN t = 0xBF800000#32)

/-- R105: the residual is 0 at dt = 0 and -1 at t = 0 with dt > 0; it is a value in [-1, 1]; the windows are disjoint, and
outside both the residual is 0; it divides only where dt > 0 (R185). -/
def Obligations.BlepResidual : Prop :=
  (∀ t : F32, legalPhase t = true → blep t f0 = f0) ∧
  (∀ dt : F32, legalIncrement dt = true → flt f0 dt = true → blep f0 dt = fNeg1) ∧
  ∀ t dt : F32, legalPhase t = true → legalIncrement dt = true →
    (finite (blep t dt) = true ∧ -1 ≤ ratOf (blep t dt) ∧ ratOf (blep t dt) ≤ 1) ∧
    ¬ (flt t dt = true ∧ fgt t (fsub f1 dt) = true) ∧
    (flt t dt = false → fgt t (fsub f1 dt) = false → blep t dt = f0) ∧
    (flt t dt = true ∨ fgt t (fsub f1 dt) = true → 0 < ratOf dt)

/-- R107: the shifted phase, that it is a phase in [0, 1), and that its subtraction is exact. -/
def Obligations.HalfPeriodShift : Prop :=
  (∀ t : F32, frac05 t =
    if fge (fadd t 0x3F000000#32) 0x3F800000#32 then fsub (fadd t 0x3F000000#32) 0x3F800000#32
    else fadd t 0x3F000000#32) ∧
  (∀ t : F32, legalPhase t = true → finite (frac05 t) = true ∧ 0 ≤ ratOf (frac05 t) ∧ ratOf (frac05 t) < 1) ∧
  ∀ u : F32, finite u = true → 1 ≤ ratOf u → ratOf u ≤ 3 / 2 →
    finite (fsub u f1) = true ∧ ratOf (fsub u f1) = ratOf u - 1

/-- R109: the guard replaces a non-finite sample by +0.0 and sets STATUS.NAN; on legal registers, at an evaluator whose
results on phases are finite, it never fires. A correctly rounded evaluator is one. -/
def Obligations.GuardNeverFires : Prop :=
  (∀ (sin : F32 → F32) (s : State), finite (wave sin s.oscWave s.oscPhase s.oscInc) = false →
    (oscProcess sin s).oscOut = 0x00000000#32 ∧ (oscProcess sin s).respPort = some 0x00000000#32 ∧
      (oscProcess sin s).nan = true) ∧
  (∀ sin : F32 → F32, Sin2PiRef sin → ∀ t, legalPhase t = true → finite (sin t) = true) ∧
  ∀ (sin : F32 → F32) (s : State), (∀ t, legalPhase t = true → finite (sin t) = true) → s.legal = true →
    finite (wave sin s.oscWave s.oscPhase s.oscInc) = true ∧
      (oscProcess sin s).status = s.status ∧ (subProcess sin s).status = s.status

/-- R111: the sum lies in [0, 1.5], the wrap's subtraction is exact and lies in [0, 0.5], and the new phase is a legal phase
after one subtraction. -/
def Obligations.PhaseWrapIsExact : Prop :=
  ∀ t dt : F32, legalPhase t = true → legalIncrement dt = true →
    let p := fadd t dt
    (finite p = true ∧ 0 ≤ ratOf p ∧ ratOf p ≤ 3 / 2) ∧
    (fge p f1 = true → finite (fsub p f1) = true ∧ ratOf (fsub p f1) = ratOf p - 1 ∧ ratOf (fsub p f1) ≤ 1 / 2) ∧
    legalPhase (advancePhase t dt) = true

/-- R112, in binary32 (spec/95_test_vectors.md E1): the saw differs from the naive saw where t < dt and t/dt <= 0.5, and
equals it outside both windows. -/
def Obligations.SawDiffersNearTheWrap : Prop :=
  ∀ t dt : F32, legalPhase t = true → legalIncrement dt = true →
    (flt t dt = true → fle (fdiv t dt) fHalf = true → feq (saw t dt) (sawN t) = false) ∧
    (flt t dt = false → fgt t (fsub f1 dt) = false → saw t dt = sawN t)

/-- R113: OSC_INC is the binary32 value nearest to the exact quotient of the frequency, clamped to SR/2, by SR. -/
def Obligations.IncrementIsNearestQuotient : Prop :=
  ∀ hz sr : F32, legalHertz hz = true → legalRate sr = true →
    IsNearestRat (min (ratOf hz) (ratOf sr / 2) / ratOf sr) (increment hz sr)

/-- R28: both increments stay in [0.0, 0.5], the clamped frequency in [0, half]; division by SR is monotone, and
fdiv(half, SR) is exactly 0.5. -/
def Obligations.IncrementBounds : Prop :=
  (∀ hz sr : F32, legalHertz hz = true → legalRate sr = true →
    0 ≤ ratOf (clampHertz hz sr) ∧ ratOf (clampHertz hz sr) ≤ ratOf (fmul fHalf sr) ∧
    fle f0 (increment hz sr) = true ∧ fle (increment hz sr) fHalf = true) ∧
  (∀ a b sr : F32, legalHertz a = true → legalHertz b = true → legalRate sr = true → ratOf a ≤ ratOf b →
    fle (fdiv a sr) (fdiv b sr) = true) ∧
  (∀ (carrier sr : F32) (oct : BitVec 2), legalHertz carrier = true → legalRate sr = true →
    fle f0 (increment (subHertz carrier oct) sr) = true ∧ fle (increment (subHertz carrier oct) sr) fHalf = true) ∧
  ∀ sr : F32, legalRate sr = true → fdiv (fmul fHalf sr) sr = fHalf

/-- R151: the sub frequency is the carrier one or two octaves down, exactly for every carrier of at least 2^-124 Hz. -/
def Obligations.SubFrequencyIsOctavesBelow : Prop :=
  ∀ (carrier : F32) (oct : BitVec 2), legalHertz carrier = true → legalOct oct = true →
    subHertz carrier oct = (if oct = 1#2 then fmul carrier 0x3F000000#32 else fmul carrier 0x3E800000#32) ∧
    (1 / 2 ^ 124 ≤ ratOf carrier → finite (subHertz carrier oct) = true ∧
      ratOf (subHertz carrier oct) = ratOf carrier / 2 ^ oct.toNat)

/-! ### Arithmetic (spec/00_scope.md R9) -/

/-- R9: each operation's finite result is the binary32 value nearest to the exact one, ties to even. That the result is
infinite exactly where the exact one is at or beyond 2^128 - 2^103 in magnitude is IEEE 754's own threshold, which the
model presumes (notes/assumptions/11.md). -/
def Obligations.ArithmeticIsCorrectlyRounded : Prop :=
  ∀ a b : F32, finite a = true → finite b = true →
    ((|ratOf a + ratOf b| < 2 ^ 128 - 2 ^ 103 → IsNearestRat (ratOf a + ratOf b) (fadd a b)) ∧
      (2 ^ 128 - 2 ^ 103 ≤ |ratOf a + ratOf b| → isInf (fadd a b) = true)) ∧
    ((|ratOf a - ratOf b| < 2 ^ 128 - 2 ^ 103 → IsNearestRat (ratOf a - ratOf b) (fsub a b)) ∧
      (2 ^ 128 - 2 ^ 103 ≤ |ratOf a - ratOf b| → isInf (fsub a b) = true)) ∧
    ((|ratOf a * ratOf b| < 2 ^ 128 - 2 ^ 103 → IsNearestRat (ratOf a * ratOf b) (fmul a b)) ∧
      (2 ^ 128 - 2 ^ 103 ≤ |ratOf a * ratOf b| → isInf (fmul a b) = true)) ∧
    (ratOf b ≠ 0 →
      (|ratOf a / ratOf b| < 2 ^ 128 - 2 ^ 103 → IsNearestRat (ratOf a / ratOf b) (fdiv a b)) ∧
      (2 ^ 128 - 2 ^ 103 ≤ |ratOf a / ratOf b| → isInf (fdiv a b) = true))

/-- R9: the ordered comparisons are false when an operand is a NaN, and otherwise order the finite values between the two
infinities; the zeros are equal. -/
def Obligations.ComparisonsAreOrdered : Prop :=
  (∀ a b : F32, isNaN a = true ∨ isNaN b = true →
    flt a b = false ∧ fle a b = false ∧ fgt a b = false ∧ fge a b = false ∧ feq a b = false) ∧
  (∀ a b : F32, finite a = true → finite b = true →
    (flt a b = true ↔ ratOf a < ratOf b) ∧ (fle a b = true ↔ ratOf a ≤ ratOf b) ∧
    (fgt a b = true ↔ ratOf b < ratOf a) ∧ (fge a b = true ↔ ratOf b ≤ ratOf a) ∧
    (feq a b = true ↔ ratOf a = ratOf b)) ∧
  (∀ a : F32, finite a = true → flt a 0x7F800000#32 = true ∧ flt 0xFF800000#32 a = true) ∧
  feq 0x00000000#32 0x80000000#32 = true

/-! ### The machine -/

/-- A step performs the command the host sends: where the pair decodes to `i`, the step is `exec i`, after the host has
taken the response on the port and the command has left the host's list (the model's choice of how the host is held:
notes/assumptions/1.md and 2.md). -/
def Obligations.StepRunsTheDecodedCommand : Prop :=
  ∀ (s : State) (c : Command) (i : Instr) (rest : List HostInput),
    s.cmdPort = .command c :: rest → decode c = .ok i →
    step s = exec i { s with
      respPort := none, respTaken := s.respTaken ++ s.respPort.toList, cmdPort := rest }

/-- R200: nothing stops the block: from every state, every number of steps answers a next state, and so does every
command. -/
def Obligations.BlockNeverStops : Prop :=
  (∀ (i : Instr) (s : State), ∃ t, exec i s = .next t) ∧
  ∀ (n : Nat) (s : State), ∃ t, Sys2Proof.core.run n s = .next t

/-- R35: every step keeps the legal contents of the registers, from every state that has them. -/
def Obligations.StepKeepsLegalRegisters : Prop :=
  ∀ s t : State, s.legal = true → step s = .next t → t.legal = true

/-- R35, R230: the registers are legal after power-on reset. -/
def Obligations.ResetIsLegal : Prop := State.reset.legal = true

/-- R35: after power-on reset and after every command, whatever the host sends, the registers are legal. -/
def Obligations.EveryReachableStateIsLegal : Prop :=
  ∀ (inputs : List HostInput) (n : Nat),
    ∃ t : State, Sys2Proof.core.run n { State.reset with cmdPort := inputs } = .next t ∧ t.legal = true

/-- R22, R26, R27: every step keeps both increments what the recompute gives for the registers they depend on. -/
def Obligations.StepKeepsIncrementsDerived : Prop :=
  ∀ s t : State, s.legal = true → s.incrementsDerived → step s = .next t → t.incrementsDerived

/-- R231: the reset values are consistent with one another. -/
def Obligations.ResetIncrementsAreDerived : Prop := State.reset.incrementsDerived

/-- R20: the registers change only by the commands that write them. On legal registers with derived increments, OSC_INC
changes only by OSC.FREQ and SETSR, and SUB_INC only by SUB.CAR, SUB.OCT and SETSR. The response port changes only by the
commands of R53. That no command touches the host's list and record is about the model's own fields
(notes/assumptions/1.md and 2.md). -/
def Obligations.RegistersChangeOnlyByTheirWriters : Prop :=
  ∀ (i : Instr) (s t : State), s.legal = true → s.incrementsDerived → exec i s = .next t →
    (t.oscPhase ≠ s.oscPhase → i = .oscProc ∨ i = .oscRst) ∧
    (t.oscInc ≠ s.oscInc → (∃ x, i = .oscFreq x) ∨ ∃ x, i = .setsr x) ∧
    (t.oscFreq ≠ s.oscFreq → ∃ x, i = .oscFreq x) ∧
    (t.oscWave ≠ s.oscWave → ∃ imm, i = .oscWave imm) ∧
    (t.oscOut ≠ s.oscOut → i = .oscProc ∨ i = .oscRst) ∧
    (t.subPhase ≠ s.subPhase → i = .subProc ∨ i = .subRst) ∧
    (t.subInc ≠ s.subInc → (∃ x, i = .subCar x) ∨ (∃ imm, i = .subOct imm) ∨ ∃ x, i = .setsr x) ∧
    (t.subCarrier ≠ s.subCarrier → ∃ x, i = .subCar x) ∧
    (t.subOct ≠ s.subOct → ∃ imm, i = .subOct imm) ∧
    (t.subOut ≠ s.subOut → i = .subProc ∨ i = .subRst) ∧
    (t.sr ≠ s.sr → ∃ x, i = .setsr x) ∧
    (t.respPort ≠ s.respPort → i = .oscProc ∨ i = .subProc ∨ ∃ imm, i = .read imm) ∧
    t.cmdPort = s.cmdPort ∧ t.respTaken = s.respTaken

/-- R114, R156: a change of frequency, waveform, octave, carrier or sample rate moves neither phase, and the next PROCESS
evaluates the new waveform at the phase reached so far with the new increment. -/
def Obligations.ConfigurationNeverMovesPhases : Prop :=
  ∀ (i : Instr) (s : State),
    (∃ imm, i = .oscWave imm) ∨ (∃ x, i = .oscFreq x) ∨ (∃ x, i = .setsr x) ∨ (∃ imm, i = .subOct imm) ∨
      (∃ x, i = .subCar x) →
    ∃ t, exec i s = .next t ∧ t.oscPhase = s.oscPhase ∧ t.subPhase = s.subPhase ∧
      ∀ sin : F32 → F32,
        (oscProcess sin t).oscOut = guardOutput (wave sin t.oscWave s.oscPhase t.oscInc) ∧
        (oscProcess sin t).oscPhase = advancePhase s.oscPhase t.oscInc ∧
        (subProcess sin t).subOut = guardOutput (sin s.subPhase) ∧
        (subProcess sin t).subPhase = advancePhase s.subPhase t.subInc

/-- R31: a STATUS bit once set stays set over every step but CLRST and power-on reset; and STATUS has no effect on anything
a command computes, but for the response of READ 11. -/
def Obligations.StatusIsStickyAndWithoutEffect : Prop :=
  (∀ s t : State, step s = .next t →
    (∀ c rest, s.cmdPort = .command c :: rest → decode c ≠ .ok .clrst) →
    (∀ rest, s.cmdPort ≠ .powerOnReset :: rest) → s.status &&& t.status = s.status) ∧
  (∀ (i : Instr) (s t : State) (v : Word), exec i s = .next t →
    ∃ u, exec i { s with status := v } = .next u ∧
      { u with status := t.status, respPort := t.respPort } = t ∧ (i ≠ .read 11#8 → u.respPort = t.respPort)) ∧
  ∀ (c : Condition) (status : Word), recordCondition c (recordCondition c status) = recordCondition c status

/-- R201, R203: exactly which conditions each command other than CLRST records in STATUS; nothing else sets a bit. -/
def Obligations.ConditionsSetTheirBits : Prop :=
  ∀ (i : Instr) (s t : State), i ≠ .clrst → exec i s = .next t →
    (t.cfg = true ↔ s.cfg = true ∨
      (∃ imm, i = .oscWave imm ∧ 3 < imm.toNat) ∨
      (∃ imm, i = .subOct imm ∧ (imm = 0#8 ∨ 2 < imm.toNat)) ∨
      (∃ x, (i = .oscFreq x ∨ i = .subCar x) ∧ (finite x = false ∨ flt x f0 = true)) ∨
      (∃ x, i = .setsr x ∧ (finite x = false ∨ flt x f1 = true)) ∨
      (((∃ x, i = .oscFreq x ∨ i = .subCar x) ∨ (∃ imm, i = .subOct imm) ∨
          (∃ x, i = .setsr x ∧ finite x = true ∧ flt x f1 = false)) ∧
        (fgt t.oscFreq (fmul fHalf t.sr) = true ∨ fgt (subHertz t.subCarrier t.subOct) (fmul fHalf t.sr) = true))) ∧
    (t.ill = true ↔ s.ill = true ∨ ∃ imm, i = .read imm ∧ 12 ≤ imm.toNat) ∧
    (t.nan = true ↔ s.nan = true ∨
      (i = .oscProc ∧ finite (wave Config.sin2pi s.oscWave s.oscPhase s.oscInc) = false) ∨
      (i = .subProc ∧ finite (Config.sin2pi s.subPhase) = false)) ∧
    t.status &&& 0xFFFFFFF8#32 = s.status &&& 0xFFFFFFF8#32

/-- OSC.PROC, SUB.PROC and READ each give one response and nothing else does; responses leave in the order of their
commands, and the host has taken each before the next command (R53). The port holds at most one word by its type. The host's
inputs and what it has taken are held as notes/assumptions/1.md and 2.md say; that the host takes a standing response before
it drives power-on reset, and that its record outlives the reset, is the model's choice (notes/assumptions/3.md). -/
def Obligations.ResponsesLeaveInOrder : Prop :=
  (∀ (s t : State) (inp : HostInput) (rest : List HostInput), s.cmdPort = inp :: rest → step s = .next t →
    t.respTaken = s.responses ∧
    (t.respPort.isSome = true ↔
      ∃ c i, inp = .command c ∧ decode c = .ok i ∧ (i = .oscProc ∨ i = .subProc ∨ ∃ imm, i = .read imm))) ∧
  ∀ (n : Nat) (s t : State), Sys2Proof.core.run n s = .next t → ∃ later, t.responses = s.responses ++ later

/-- A command's effects do not depend on any later input (R56, R60): the same step with another list of later inputs ends in
the same state with that list. That the host's inputs are such a list, with power-on reset among them, and that the list
outlives a reset, is the model's choice (notes/assumptions/1.md and 3.md). -/
def Obligations.LaterInputsHaveNoEffect : Prop :=
  ∀ (s t : State) (inp : HostInput) (rest rest' : List HostInput),
    step { s with cmdPort := inp :: rest } = .next t →
    step { s with cmdPort := inp :: rest' } = .next { t with cmdPort := rest' }

/-- R57: issued twice with the same operand, a SET-type command leaves the state that issuing it once leaves; two READs of
one index respond the same word. -/
def Obligations.SetCommandsAreIdempotent : Prop :=
  (∀ (i : Instr) (s t : State),
    (∃ imm, i = .oscWave imm) ∨ (∃ x, i = .oscFreq x) ∨ (∃ imm, i = .subOct imm) ∨ (∃ x, i = .subCar x) ∨
      (∃ x, i = .setsr x) → exec i s = .next t → exec i t = .next t) ∧
  ∀ (imm : BitVec 8) (s t : State), exec (.read imm) s = .next t →
    ∃ u, exec (.read imm) t = .next u ∧ u.respPort = t.respPort

/-- R235: the final increments, and every register but STATUS, do not depend on the order of two configuration commands of
different kinds. -/
def Obligations.ConfigurationOrderDoesNotMatter : Prop :=
  ∀ (s t u t' u' : State) (w o : BitVec 8) (f c r : F32),
    ∀ i ∈ [Instr.oscWave w, .oscFreq f, .subOct o, .subCar c, .setsr r],
    ∀ j ∈ [Instr.oscWave w, .oscFreq f, .subOct o, .subCar c, .setsr r], i ≠ j →
      exec i s = .next t → exec j t = .next u → exec j s = .next t' → exec i t' = .next u' →
      { u' with status := u.status } = u

/-- R25, R210: the telemetry registers OSC_OUT and SUB_OUT are never fed back: other values in them change nothing but
themselves and what READ 4 and READ 9 respond. -/
def Obligations.OutputsAreNeverFedBack : Prop :=
  ∀ (i : Instr) (s t : State) (a b : F32), exec i s = .next t →
    ∃ u, exec i { s with oscOut := a, subOut := b } = .next u ∧
      { u with oscOut := t.oscOut, subOut := t.subOut, respPort := t.respPort } = t ∧
      (i ≠ .read 4#8 → i ≠ .read 9#8 → u.respPort = t.respPort)

/-- The units are independent: SUB.PROC does not read or change a BOSC register (R150, R153), and OSC.PROC, by the operands
and pseudocode of R110, does not read or change a SOSC register. -/
def Obligations.UnitsAreIndependent : Prop :=
  (∀ (s r t : State), exec .subProc s = .next t →
    t.oscPhase = s.oscPhase ∧ t.oscInc = s.oscInc ∧ t.oscFreq = s.oscFreq ∧ t.oscWave = s.oscWave ∧
      t.oscOut = s.oscOut ∧
    ∃ u, exec .subProc { s with
        oscPhase := r.oscPhase, oscInc := r.oscInc, oscFreq := r.oscFreq, oscWave := r.oscWave, oscOut := r.oscOut } =
        .next u ∧ u.respPort = t.respPort ∧ u.subPhase = t.subPhase ∧ u.subOut = t.subOut ∧ u.status = t.status) ∧
  (∀ (s r t : State), exec .oscProc s = .next t →
    t.subPhase = s.subPhase ∧ t.subInc = s.subInc ∧ t.subCarrier = s.subCarrier ∧ t.subOct = s.subOct ∧
      t.subOut = s.subOut ∧
    ∃ u, exec .oscProc { s with
        subPhase := r.subPhase, subInc := r.subInc, subCarrier := r.subCarrier, subOct := r.subOct,
        subOut := r.subOut } =
        .next u ∧ u.respPort = t.respPort ∧ u.oscPhase = t.oscPhase ∧ u.oscOut = t.oscOut ∧ u.status = t.status)

/-- R230: power-on reset, as the state after reset and as the input that brings every register and the response port of a
running block back to it. What it does to the host's own list and record (notes/assumptions/3.md) is not stated. -/
def Obligations.PowerOnResetValues : Prop :=
  (State.reset.oscPhase = 0x00000000#32 ∧ State.reset.oscInc = 0x00000000#32 ∧ State.reset.oscFreq = 0x00000000#32 ∧
    State.reset.oscOut = 0x00000000#32 ∧ State.reset.oscWave = 0#2 ∧ State.reset.subPhase = 0x00000000#32 ∧
    State.reset.subInc = 0x00000000#32 ∧ State.reset.subCarrier = 0x00000000#32 ∧ State.reset.subOut = 0x00000000#32 ∧
    State.reset.subOct = 1#2 ∧ State.reset.sr = 0x472C4400#32 ∧ State.reset.status = 0x00000000#32 ∧
    State.reset.respPort = none) ∧
  ∀ (s : State) (rest : List HostInput), s.cmdPort = .powerOnReset :: rest →
    ∃ t, step s = .next t ∧ { t with cmdPort := [], respTaken := [] } = State.reset

/-- R231: with phase and increment 0, as after reset, OSC.PROC gives one word for ever: triangle 1.0, saw -1.0, pulse +1.0,
and 0.0 for a sine correctly rounded; the phase stays 0. -/
def Obligations.ConstantUntilConfigured : Prop :=
  ∀ (sin : F32 → F32) (s : State) (n : Nat), s.oscPhase = f0 → s.oscInc = f0 →
    let t := (oscProcess sin)^[n + 1] s
    t.oscPhase = f0 ∧
    (s.oscWave = 1#2 → t.respPort = some 0x3F800000#32) ∧
    (s.oscWave = 2#2 → t.respPort = some 0xBF800000#32) ∧
    (s.oscWave = 3#2 → t.respPort = some 0x3F800000#32) ∧
    (Sin2PiRef sin → s.oscWave = 0#2 → t.respPort = some 0x00000000#32)
end

