-- ==== Sys2Proof/Laws/Binary32.lean ====
section
/-! SUPPORT. What the binary32 primitives guarantee: rounding is monotone and keeps representable values, so the result of
an operation lies between any two binary32 values the exact result lies between. -/

namespace Sys2Proof.Machine

/-! ### Patterns -/

theorem mag_lt (w : F32) : mag w < 2 ^ 31 := Nat.mod_lt _ (by norm_num)

theorem signBit_eq (w : F32) : signBit w = decide (2 ^ 31 ≤ w.toNat) := by
  simp [signBit, BitVec.msb_eq_decide]

theorem toNat_eq_sign_mag (w : F32) : w.toNat = (if signBit w then 2 ^ 31 else 0) + mag w := by
  have h := w.isLt
  rw [signBit_eq, mag]
  by_cases hs : 2 ^ 31 ≤ w.toNat
  · rw [if_pos (by simpa using hs)]; omega
  · rw [if_neg (by simpa using hs)]; omega

theorem toNat_ofMag {m : Nat} (neg : Bool) (h : m < 2 ^ 31) :
    (ofMag neg m).toNat = (if neg then 2 ^ 31 else 0) + m := by
  cases neg
  · simp [ofMag]; omega
  · simp [ofMag]; omega

@[simp] theorem mag_ofMag {m : Nat} (neg : Bool) (h : m < 2 ^ 31) : mag (ofMag neg m) = m := by
  rw [mag, toNat_ofMag neg h]
  cases neg <;> simp <;> omega

@[simp] theorem signBit_ofMag {m : Nat} (neg : Bool) (h : m < 2 ^ 31) : signBit (ofMag neg m) = neg := by
  rw [signBit_eq, toNat_ofMag neg h]
  cases neg
  · simp; omega
  · simp

/-- A pattern is its sign and its magnitude. -/
theorem ofMag_sign_mag (w : F32) : ofMag (signBit w) (mag w) = w := by
  apply BitVec.eq_of_toNat_eq
  rw [toNat_ofMag _ (mag_lt w), toNat_eq_sign_mag w]

theorem eq_of_sign_mag {a b : F32} (hs : signBit a = signBit b) (hm : mag a = mag b) : a = b := by
  rw [← ofMag_sign_mag a, ← ofMag_sign_mag b, hs, hm]

theorem toNat_fneg_mod (a : F32) : (fneg a).toNat % 2 ^ 31 = a.toNat % 2 ^ 31 := by
  have h : (fneg a).setWidth 31 = a.setWidth 31 := by
    ext i hi
    have : ¬ 31 = i := by omega
    simp only [fneg, BitVec.getElem_setWidth, BitVec.getLsbD_xor]
    rw [show (0x80000000#32) = BitVec.twoPow 32 31 from rfl, BitVec.getLsbD_twoPow]
    simp [this]
  simpa only [BitVec.toNat_setWidth] using congrArg BitVec.toNat h

@[simp] theorem mag_fneg (a : F32) : mag (fneg a) = mag a := toNat_fneg_mod a

@[simp] theorem signBit_fneg (a : F32) : signBit (fneg a) = !signBit a := by
  rw [signBit, fneg, BitVec.msb_xor, show (0x80000000#32).msb = true from by decide, Bool.xor_true, signBit]

theorem toNat_fabs_mod (a : F32) : (fabs a).toNat % 2 ^ 31 = a.toNat % 2 ^ 31 := by
  have h : (fabs a).setWidth 31 = a.setWidth 31 := by
    ext i hi
    simp only [fabs, BitVec.getElem_setWidth, BitVec.getLsbD_and]
    rw [show (0x7FFFFFFF#32) = ~~~ BitVec.twoPow 32 31 from by decide, BitVec.getLsbD_not, BitVec.getLsbD_twoPow]
    have : ¬ (31 = i) := by omega
    simp [this]; intro _; omega
  simpa only [BitVec.toNat_setWidth] using congrArg BitVec.toNat h

@[simp] theorem mag_fabs (a : F32) : mag (fabs a) = mag a := toNat_fabs_mod a

@[simp] theorem signBit_fabs (a : F32) : signBit (fabs a) = false := by
  rw [signBit, fabs, BitVec.msb_and, show (0x7FFFFFFF#32).msb = false from by decide, Bool.and_false]

theorem finite_iff (w : F32) : finite w = true ↔ mag w < infMag := by simp [finite]

theorem not_isNaN_of_finite {w : F32} (h : finite w = true) : isNaN w = false := by
  rw [finite_iff] at h; simp [isNaN]; omega

theorem not_isInf_of_finite {w : F32} (h : finite w = true) : isInf w = false := by
  rw [finite_iff] at h; simp [isInf]; omega

@[simp] theorem finite_fneg (a : F32) : finite (fneg a) = finite a := by simp [finite]

@[simp] theorem finite_fabs (a : F32) : finite (fabs a) = finite a := by simp [finite]

/-! ### Magnitudes in units -/

/-- A significand `k` scaled by `2 ^ s`: the magnitude pattern is `s * 2^23 + k`, at the carry `k = 2^24` too. -/
theorem unitsOf_scaled {s k : Nat} (hk : k ≤ 2 ^ 24) (hs : s = 0 ∨ 2 ^ 23 ≤ k) :
    unitsOf (s * 2 ^ 23 + k) = k * 2 ^ s := by
  unfold unitsOf
  by_cases hsm : k < 2 ^ 23
  · obtain rfl : s = 0 := by omega
    rw [if_pos (by omega)]; omega
  · have hge : ¬ s * 2 ^ 23 + k < 2 ^ 23 := by omega
    rw [if_neg hge]
    by_cases hc : k = 2 ^ 24
    · subst hc
      have h1 : (s * 2 ^ 23 + 2 ^ 24) / 2 ^ 23 = s + 2 := by omega
      have h2 : (s * 2 ^ 23 + 2 ^ 24) % 2 ^ 23 = 0 := by omega
      rw [h1, h2, show s + 2 - 1 = s + 1 by omega, pow_succ 2 s]
      generalize 2 ^ s = p
      omega
    · have h1 : (s * 2 ^ 23 + k) / 2 ^ 23 = s + 1 := by omega
      have h2 : (s * 2 ^ 23 + k) % 2 ^ 23 = k - 2 ^ 23 := by omega
      rw [h1, h2, Nat.add_sub_cancel, show 2 ^ 23 + (k - 2 ^ 23) = k by omega]

/-- Every magnitude pattern is a scaled significand. -/
theorem exists_scaled (m : Nat) :
    ∃ s k, m = s * 2 ^ 23 + k ∧ k < 2 ^ 24 ∧ (s = 0 ∨ 2 ^ 23 ≤ k) ∧ unitsOf m = k * 2 ^ s := by
  by_cases h : m < 2 ^ 23
  · exact ⟨0, m, by omega, by omega, .inl rfl, by rw [unitsOf, if_pos h]; omega⟩
  · refine ⟨m / 2 ^ 23 - 1, 2 ^ 23 + m % 2 ^ 23, by omega, by omega, .inr (by omega), ?_⟩
    rw [unitsOf, if_neg h]

theorem unitsOf_lt_succ (m : Nat) : unitsOf m < unitsOf (m + 1) := by
  obtain ⟨s, k, rfl, hk, hs, hu⟩ := exists_scaled m
  have h1 : unitsOf (s * 2 ^ 23 + (k + 1)) = (k + 1) * 2 ^ s := unitsOf_scaled (by omega) (by omega)
  rw [hu, Nat.add_assoc, h1]
  have : 0 < 2 ^ s := Nat.two_pow_pos s
  nlinarith

theorem unitsOf_strictMono : StrictMono unitsOf := strictMono_nat_of_lt_succ unitsOf_lt_succ

@[simp] theorem unitsOf_lt_iff {a b : Nat} : unitsOf a < unitsOf b ↔ a < b := unitsOf_strictMono.lt_iff_lt

@[simp] theorem unitsOf_le_iff {a b : Nat} : unitsOf a ≤ unitsOf b ↔ a ≤ b := unitsOf_strictMono.le_iff_le

@[simp] theorem unitsOf_inj {a b : Nat} : unitsOf a = unitsOf b ↔ a = b := unitsOf_strictMono.injective.eq_iff

@[simp] theorem unitsOf_zero : unitsOf 0 = 0 := by simp [unitsOf]

theorem unitsOf_eq_zero {m : Nat} : unitsOf m = 0 ↔ m = 0 := by
  constructor
  · intro h; exact unitsOf_inj.1 (h.trans unitsOf_zero.symm)
  · rintro rfl; exact unitsOf_zero

/-! ### Rounding -/

theorem roundDiv_bounds (n d : Nat) : n / d ≤ roundDiv n d ∧ roundDiv n d ≤ n / d + 1 := by
  unfold roundDiv; split <;> omega

/-- Rounding to a whole number is monotone in the quotient. -/
theorem roundDiv_mono {n₁ d₁ n₂ d₂ : Nat} (h₁ : 0 < d₁) (h₂ : 0 < d₂) (h : n₁ * d₂ ≤ n₂ * d₁) :
    roundDiv n₁ d₁ ≤ roundDiv n₂ d₂ := by
  have hq : n₁ / d₁ ≤ n₂ / d₂ := by
    rw [Nat.le_div_iff_mul_le h₂]
    have : n₁ / d₁ * d₁ ≤ n₁ := Nat.div_mul_le_self n₁ d₁
    have : n₁ / d₁ * d₂ * d₁ ≤ n₂ * d₁ := by nlinarith
    exact Nat.le_of_mul_le_mul_right this h₁
  rcases Nat.lt_or_eq_of_le hq with hlt | heq
  · have := (roundDiv_bounds n₁ d₁).2
    have := (roundDiv_bounds n₂ d₂).1
    omega
  · have e₁ := Nat.div_add_mod n₁ d₁
    have e₂ := Nat.div_add_mod n₂ d₂
    have hr : n₁ % d₁ * d₂ ≤ n₂ % d₂ * d₁ := by
      rw [heq] at e₁
      generalize n₂ / d₂ = q at *
      generalize n₁ % d₁ = r₁ at *
      generalize n₂ % d₂ = r₂ at *
      subst e₁ e₂
      nlinarith
    unfold roundDiv
    rw [heq]
    split
    · rename_i hu
      rw [if_pos]
      rcases hu with hu | ⟨hu, ho⟩
      · left
        by_contra hn
        have : 2 * (n₂ % d₂) ≤ d₂ := by omega
        nlinarith
      · by_cases hlt : d₂ < 2 * (n₂ % d₂)
        · exact .inl hlt
        · refine .inr ⟨?_, ho⟩
          have h3 : d₂ * d₁ ≤ 2 * (n₂ % d₂) * d₁ := by nlinarith
          have := Nat.le_of_mul_le_mul_right h3 h₁
          omega
    · split <;> omega

theorem roundDiv_mul {q d : Nat} (h : 0 < d) : roundDiv (q * d) d = q := by
  simp [roundDiv, h]; omega

theorem roundDiv_zero {d : Nat} (h : 0 < d) : roundDiv 0 d = 0 := by
  simpa using roundDiv_mul (q := 0) h

theorem roundShift_le {n d : Nat} : n / d < 2 ^ (roundShift n d + 24) := by
  unfold roundShift
  by_cases h : n / d = 0
  · simp [h]
  · have := (Nat.log2_lt h).1 (Nat.lt_succ_self (Nat.log2 (n / d)))
    refine lt_of_lt_of_le this (Nat.pow_le_pow_right (by norm_num) ?_)
    omega

theorem le_roundShift {n d : Nat} (h : roundShift n d ≠ 0) : 2 ^ (roundShift n d + 23) ≤ n / d := by
  have h0 : n / d ≠ 0 := by
    intro h0; apply h; simp [roundShift, h0]
  have hl : roundShift n d + 23 = Nat.log2 (n / d) := by
    unfold roundShift at *; omega
  rw [hl]
  exact Nat.log2_self_le h0

/-- The rounded significand is at most `2 ^ 24`, and at least `2 ^ 23` beyond the first binade. -/
theorem roundDiv_significand {n d : Nat} (h : 0 < d) :
    roundDiv n (d * 2 ^ roundShift n d) ≤ 2 ^ 24 ∧
    (roundShift n d = 0 ∨ 2 ^ 23 ≤ roundDiv n (d * 2 ^ roundShift n d)) := by
  have hp : 0 < 2 ^ roundShift n d := Nat.two_pow_pos _
  constructor
  · have hlt : n < d * 2 ^ (roundShift n d + 24) :=
      (Nat.div_lt_iff_lt_mul h).1 roundShift_le |>.trans_eq (Nat.mul_comm _ _)
    have := roundDiv_mono (n₁ := n) (d₁ := d * 2 ^ roundShift n d) (n₂ := 2 ^ 24) (d₂ := 1)
      (Nat.mul_pos h hp) one_pos (by rw [pow_add] at hlt; nlinarith)
    have h24 := roundDiv_mul (q := 2 ^ 24) (d := 1) one_pos
    rw [Nat.mul_one] at h24
    exact this.trans_eq h24
  · by_cases h0 : roundShift n d = 0
    · exact .inl h0
    · right
      have hge : 2 ^ (roundShift n d + 23) * d ≤ n := (Nat.le_div_iff_mul_le h).1 (le_roundShift h0)
      have := roundDiv_mono (n₁ := 2 ^ 23) (d₁ := 1) (n₂ := n) (d₂ := d * 2 ^ roundShift n d)
        one_pos (Nat.mul_pos h hp) (by rw [pow_add] at hge; nlinarith)
      have h23 := roundDiv_mul (q := 2 ^ 23) (d := 1) one_pos
      rw [Nat.mul_one] at h23
      exact h23.symm.trans_le this

theorem roundMag_le_infMag (n d : Nat) : roundMag n d ≤ infMag := Nat.min_le_left _ _

theorem roundMag_lt (n d : Nat) : roundMag n d < 2 ^ 31 :=
  lt_of_le_of_lt (roundMag_le_infMag n d) (by norm_num [infMag])

theorem roundShift_mono {n₁ d₁ n₂ d₂ : Nat} (h : n₁ / d₁ ≤ n₂ / d₂) : roundShift n₁ d₁ ≤ roundShift n₂ d₂ := by
  unfold roundShift
  rcases Nat.eq_zero_or_pos (n₁ / d₁) with h0 | h0
  · simp [h0]
  · have : Nat.log2 (n₁ / d₁) ≤ Nat.log2 (n₂ / d₂) := by
      rw [Nat.le_log2 (by omega)]
      exact (Nat.log2_self_le (by omega)).trans h
    omega

/-- Rounding is monotone in the exact magnitude. -/
theorem roundMag_mono {n₁ d₁ n₂ d₂ : Nat} (h₁ : 0 < d₁) (h₂ : 0 < d₂) (h : n₁ * d₂ ≤ n₂ * d₁) :
    roundMag n₁ d₁ ≤ roundMag n₂ d₂ := by
  have hq : n₁ / d₁ ≤ n₂ / d₂ := by
    rw [Nat.le_div_iff_mul_le h₂]
    have : n₁ / d₁ * d₁ ≤ n₁ := Nat.div_mul_le_self n₁ d₁
    have : n₁ / d₁ * d₂ * d₁ ≤ n₂ * d₁ := by nlinarith
    exact Nat.le_of_mul_le_mul_right this h₁
  have hs := roundShift_mono hq
  have b₁ := roundDiv_significand (n := n₁) h₁
  have b₂ := roundDiv_significand (n := n₂) h₂
  unfold roundMag
  apply min_le_min_left
  rcases Nat.lt_or_eq_of_le hs with hlt | heq
  · rcases b₂.2 with h0 | hge
    · omega
    · have := b₁.1
      generalize roundDiv n₁ (d₁ * 2 ^ roundShift n₁ d₁) = k₁ at *
      generalize roundDiv n₂ (d₂ * 2 ^ roundShift n₂ d₂) = k₂ at *
      omega
  · rw [heq]
    have hp : 0 < 2 ^ roundShift n₂ d₂ := Nat.two_pow_pos _
    have := roundDiv_mono (n₁ := n₁) (d₁ := d₁ * 2 ^ roundShift n₂ d₂) (n₂ := n₂)
      (d₂ := d₂ * 2 ^ roundShift n₂ d₂) (Nat.mul_pos h₁ hp) (Nat.mul_pos h₂ hp) (by nlinarith)
    omega

/-- Rounding keeps a representable magnitude. -/
theorem roundMag_unitsOf {m d : Nat} (hm : m < infMag) (h : 0 < d) : roundMag (unitsOf m * d) d = m := by
  obtain ⟨s, k, rfl, hk, hs, hu⟩ := exists_scaled m
  have hdiv : unitsOf (s * 2 ^ 23 + k) * d / d = k * 2 ^ s := by rw [Nat.mul_div_cancel _ h, hu]
  have hshift : roundShift (unitsOf (s * 2 ^ 23 + k) * d) d = s := by
    unfold roundShift
    rw [hdiv]
    rcases hs with rfl | hs
    · rcases Nat.eq_zero_or_pos k with rfl | hk0
      · simp
      · have : Nat.log2 k < 24 := (Nat.log2_lt (by omega)).2 hk
        simp; omega
    · have h0 : k * 2 ^ s ≠ 0 := by positivity
      have h1 : 2 ^ (23 + s) ≤ k * 2 ^ s := by rw [pow_add]; exact Nat.mul_le_mul_right _ hs
      have h2 : k * 2 ^ s < 2 ^ (24 + s) := by
        rw [pow_add]; exact Nat.mul_lt_mul_of_pos_right hk (Nat.two_pow_pos s)
      have h3 := (Nat.le_log2 h0).2 h1
      have h4 := (Nat.log2_lt h0).2 h2
      omega
  unfold roundMag
  rw [hshift, hu, show k * 2 ^ s * d = k * (d * 2 ^ s) by ring,
    roundDiv_mul (Nat.mul_pos h (Nat.two_pow_pos s))]
  omega

theorem roundMag_zero {d : Nat} (h : 0 < d) : roundMag 0 d = 0 := by
  simpa using roundMag_unitsOf (m := 0) (d := d) (by norm_num [infMag]) h

theorem roundMag_le {n d u : Nat} (hu : u < infMag) (hd : 0 < d) (h : n ≤ unitsOf u * d) : roundMag n d ≤ u := by
  have := roundMag_mono (n₁ := n) (n₂ := unitsOf u * d) hd hd (Nat.mul_le_mul_right d h)
  rwa [roundMag_unitsOf hu hd] at this

theorem le_roundMag {n d l : Nat} (hl : l < infMag) (hd : 0 < d) (h : unitsOf l * d ≤ n) : l ≤ roundMag n d := by
  have := roundMag_mono (n₁ := unitsOf l * d) (n₂ := n) hd hd (Nat.mul_le_mul_right d h)
  rwa [roundMag_unitsOf hl hd] at this

/-! ### Signed values -/

/-- Twice negated, a pattern is itself. -/
@[simp] theorem fneg_fneg (a : F32) : fneg (fneg a) = a := eq_of_sign_mag (by simp) (by simp)

theorem exactUnits_ofMag {m : Nat} (neg : Bool) (h : m < 2 ^ 31) :
    exactUnits (ofMag neg m) = if neg then -(unitsOf m : Int) else (unitsOf m : Int) := by
  rw [exactUnits, signBit_ofMag neg h, mag_ofMag neg h]

@[simp] theorem exactUnits_fneg (a : F32) : exactUnits (fneg a) = -exactUnits a := by
  rw [exactUnits, exactUnits, signBit_fneg, mag_fneg]
  cases signBit a <;> simp

@[simp] theorem ratOf_fneg (a : F32) : ratOf (fneg a) = -ratOf a := by simp [ratOf]; ring

theorem exactUnits_fabs (a : F32) : exactUnits (fabs a) = |exactUnits a| := by
  unfold exactUnits
  cases h : signBit a <;> simp

@[simp] theorem ratOf_fabs (a : F32) : ratOf (fabs a) = |ratOf a| := by
  rw [ratOf, exactUnits_fabs, ratOf, abs_div]
  simp

theorem natAbs_exactUnits (a : F32) : (exactUnits a).natAbs = unitsOf (mag a) := by
  unfold exactUnits; split <;> simp

theorem ratOf_le_iff {a b : F32} : ratOf a ≤ ratOf b ↔ exactUnits a ≤ exactUnits b := by
  unfold ratOf
  rw [div_le_div_iff_of_pos_right (by positivity)]
  exact_mod_cast Iff.rfl

theorem ratOf_lt_iff {a b : F32} : ratOf a < ratOf b ↔ exactUnits a < exactUnits b := by
  unfold ratOf
  rw [div_lt_div_iff_of_pos_right (by positivity)]
  exact_mod_cast Iff.rfl

theorem ratOf_inj {a b : F32} : ratOf a = ratOf b ↔ exactUnits a = exactUnits b := by
  rw [le_antisymm_iff, le_antisymm_iff, ratOf_le_iff, ratOf_le_iff]

/-- The order of the patterns is the order of the values. -/
theorem orderKey_le_iff {a b : F32} : orderKey a ≤ orderKey b ↔ ratOf a ≤ ratOf b := by
  rw [ratOf_le_iff]
  unfold orderKey exactUnits
  have h0 := unitsOf_le_iff (a := mag a) (b := mag b)
  have h1 := unitsOf_le_iff (a := mag b) (b := mag a)
  have h2 := unitsOf_eq_zero (m := mag a)
  have h3 := unitsOf_eq_zero (m := mag b)
  cases signBit a <;> cases signBit b <;> (simp only [if_true, if_false, Bool.false_eq_true]; omega)

theorem fle_iff {a b : F32} (ha : finite a = true) (hb : finite b = true) :
    fle a b = true ↔ ratOf a ≤ ratOf b := by
  simp [fle, not_isNaN_of_finite ha, not_isNaN_of_finite hb, orderKey_le_iff]

theorem flt_iff {a b : F32} (ha : finite a = true) (hb : finite b = true) :
    flt a b = true ↔ ratOf a < ratOf b := by
  have := orderKey_le_iff (a := b) (b := a)
  simp only [flt, not_isNaN_of_finite ha, not_isNaN_of_finite hb, Bool.not_false, Bool.true_and, decide_eq_true_eq]
  rw [← not_le, this, not_le]

theorem feq_iff {a b : F32} (ha : finite a = true) (hb : finite b = true) :
    feq a b = true ↔ ratOf a = ratOf b := by
  simp only [feq, not_isNaN_of_finite ha, not_isNaN_of_finite hb, Bool.not_false, Bool.true_and, decide_eq_true_eq]
  rw [le_antisymm_iff, le_antisymm_iff, orderKey_le_iff, orderKey_le_iff]

theorem flt_eq_false_iff {a b : F32} (ha : finite a = true) (hb : finite b = true) :
    flt a b = false ↔ ratOf b ≤ ratOf a := by
  rw [← Bool.not_eq_true, flt_iff ha hb, not_lt]

theorem fle_eq_false_iff {a b : F32} (ha : finite a = true) (hb : finite b = true) :
    fle a b = false ↔ ratOf b < ratOf a := by
  rw [← Bool.not_eq_true, fle_iff ha hb, not_le]

/-- Two finite patterns of one value are one pattern, but for the two zeros. -/
theorem eq_or_zeros_of_ratOf_eq {a b : F32} (h : ratOf a = ratOf b) : a = b ∨ (mag a = 0 ∧ mag b = 0) := by
  rw [ratOf_inj] at h
  have hm : unitsOf (mag a) = unitsOf (mag b) := by rw [← natAbs_exactUnits, ← natAbs_exactUnits, h]
  rw [unitsOf_inj] at hm
  by_cases h0 : mag a = 0
  · exact .inr ⟨h0, hm ▸ h0⟩
  · refine .inl (eq_of_sign_mag ?_ hm)
    have hu : unitsOf (mag a) ≠ 0 := fun h => h0 (unitsOf_eq_zero.1 h)
    unfold exactUnits at h
    rw [← hm] at h
    cases ha : signBit a <;> cases hb : signBit b <;> rw [ha, hb] at h <;> simp only [if_true, if_false, Bool.false_eq_true] at h <;> first | rfl | omega

theorem exactUnits_of_nonneg {w : F32} (h : 0 ≤ exactUnits w) : exactUnits w = unitsOf (mag w) := by
  unfold exactUnits at *; split at h <;> simp_all

/-- Rounding a magnitude of `n/d` units stays between any two finite values it lies between. -/
theorem roundMag_between {n d : Nat} {l u : F32} (hd : 0 < d) (hl : finite l = true) (hu : finite u = true)
    (h1 : exactUnits l * d ≤ n) (h2 : (n : Int) ≤ exactUnits u * d) :
    roundMag n d < infMag ∧ exactUnits l ≤ unitsOf (roundMag n d) ∧ (unitsOf (roundMag n d) : Int) ≤ exactUnits u := by
  rw [finite_iff] at hl hu
  have hd' : (0 : Int) < d := by exact_mod_cast hd
  have hu0 : 0 ≤ exactUnits u := by
    by_contra hn
    have : exactUnits u * d < 0 := mul_neg_of_neg_of_pos (by omega) hd'
    omega
  rw [exactUnits_of_nonneg hu0] at h2 ⊢
  have hle : roundMag n d ≤ mag u := roundMag_le hu hd (by exact_mod_cast h2)
  refine ⟨lt_of_le_of_lt hle hu, ?_, by exact_mod_cast unitsOf_le_iff.2 hle⟩
  by_cases hl0 : 0 ≤ exactUnits l
  · rw [exactUnits_of_nonneg hl0] at h1 ⊢
    exact_mod_cast unitsOf_le_iff.2 (le_roundMag hl hd (by exact_mod_cast h1))
  · omega

/-- Rounding a signed exact value `±n/d` units stays between any two finite values it lies between. -/
theorem signed_round_between {neg : Bool} {n d : Nat} {l u : F32} (hd : 0 < d)
    (hl : finite l = true) (hu : finite u = true)
    (h1 : exactUnits l * d ≤ if neg then -(n : Int) else n)
    (h2 : (if neg then -(n : Int) else n) ≤ exactUnits u * d) :
    finite (ofMag neg (roundMag n d)) = true ∧ exactUnits l ≤ exactUnits (ofMag neg (roundMag n d)) ∧
      exactUnits (ofMag neg (roundMag n d)) ≤ exactUnits u := by
  rw [exactUnits_ofMag _ (roundMag_lt n d), finite_iff, mag_ofMag _ (roundMag_lt n d)]
  cases neg
  · exact roundMag_between hd hl hu h1 h2
  · simp only [if_true] at h1 h2 ⊢
    have := roundMag_between (n := n) (l := fneg u) (u := fneg l) hd (by simpa) (by simpa)
      (by rw [exactUnits_fneg]; linarith) (by rw [exactUnits_fneg]; linarith)
    rw [exactUnits_fneg, exactUnits_fneg] at this
    exact ⟨this.1, by linarith [this.2.2], by linarith [this.2.1]⟩

/-! ### The four operations on finite operands -/

theorem fadd_of_finite {a b : F32} (ha : finite a = true) (hb : finite b = true) : fadd a b = faddFinite a b := by
  simp [fadd, not_isNaN_of_finite ha, not_isNaN_of_finite hb, not_isInf_of_finite ha, not_isInf_of_finite hb]

theorem fsub_of_finite {a b : F32} (ha : finite a = true) (hb : finite b = true) :
    fsub a b = faddFinite a (fneg b) := by
  rw [← fadd_of_finite ha (by simpa using hb)]
  simp [fsub, not_isNaN_of_finite ha, not_isNaN_of_finite hb, not_isInf_of_finite ha, not_isInf_of_finite hb]

theorem fmul_of_finite {a b : F32} (ha : finite a = true) (hb : finite b = true) : fmul a b = fmulFinite a b := by
  simp [fmul, not_isNaN_of_finite ha, not_isNaN_of_finite hb, not_isInf_of_finite ha, not_isInf_of_finite hb]

theorem fdiv_of_finite {a b : F32} (ha : finite a = true) (hb : finite b = true) (h0 : mag b ≠ 0) :
    fdiv a b = fdivFinite a b := by
  simp [fdiv, not_isNaN_of_finite ha, not_isNaN_of_finite hb, not_isInf_of_finite ha, not_isInf_of_finite hb, h0]

theorem signed_units_add (a b : F32) :
    (if exactUnits a + exactUnits b < 0 then -((exactUnits a + exactUnits b).natAbs : Int)
      else ((exactUnits a + exactUnits b).natAbs : Int)) = exactUnits a + exactUnits b := by
  split <;> omega

theorem signed_units_mul (a b : F32) :
    (if signBit a ^^ signBit b then -((unitsOf (mag a) * unitsOf (mag b) : Nat) : Int)
      else ((unitsOf (mag a) * unitsOf (mag b) : Nat) : Int)) = exactUnits a * exactUnits b := by
  unfold exactUnits
  cases signBit a <;> cases signBit b <;> simp

theorem ratOf_add_eq (a b : F32) : ratOf a + ratOf b = ((exactUnits a + exactUnits b : Int) : ℚ) / 2 ^ 149 := by
  unfold ratOf; push_cast; ring

theorem ratOf_zero_iff {w : F32} : ratOf w = 0 ↔ mag w = 0 := by
  unfold ratOf
  rw [div_eq_zero_iff, or_iff_left (by positivity), Int.cast_eq_zero, ← Int.natAbs_eq_zero, natAbs_exactUnits,
    unitsOf_eq_zero]

/-- The sum of finite operands stays between any two finite values the exact sum lies between. -/
theorem fadd_between {a b l u : F32} (ha : finite a = true) (hb : finite b = true) (hl : finite l = true)
    (hu : finite u = true) (h1 : ratOf l ≤ ratOf a + ratOf b) (h2 : ratOf a + ratOf b ≤ ratOf u) :
    finite (fadd a b) = true ∧ ratOf l ≤ ratOf (fadd a b) ∧ ratOf (fadd a b) ≤ ratOf u := by
  rw [ratOf_add_eq, ratOf, div_le_div_iff_of_pos_right (by positivity)] at h1 h2
  rw [fadd_of_finite ha hb, ratOf_le_iff, ratOf_le_iff]
  unfold faddFinite
  have h1' : exactUnits l ≤ exactUnits a + exactUnits b := by exact_mod_cast h1
  have h2' : exactUnits a + exactUnits b ≤ exactUnits u := by exact_mod_cast h2
  dsimp only
  split
  · rename_i hz
    rw [exactUnits_ofMag _ (by norm_num), finite_iff, mag_ofMag _ (by norm_num)]
    rw [hz] at h1' h2'
    simp [infMag, h1', h2']
  · have hz := signed_units_add a b
    have := signed_round_between (neg := decide (exactUnits a + exactUnits b < 0))
      (n := (exactUnits a + exactUnits b).natAbs) one_pos hl hu
    simp only [decide_eq_true_eq, hz, Nat.cast_one, mul_one] at this
    exact this h1' h2'

/-- The difference of finite operands stays between any two finite values the exact difference lies between. -/
theorem fsub_between {a b l u : F32} (ha : finite a = true) (hb : finite b = true) (hl : finite l = true)
    (hu : finite u = true) (h1 : ratOf l ≤ ratOf a - ratOf b) (h2 : ratOf a - ratOf b ≤ ratOf u) :
    finite (fsub a b) = true ∧ ratOf l ≤ ratOf (fsub a b) ∧ ratOf (fsub a b) ≤ ratOf u := by
  have hn : finite (fneg b) = true := by simpa using hb
  rw [fsub_of_finite ha hb, ← fadd_of_finite ha hn]
  exact fadd_between ha hn hl hu (by rw [ratOf_fneg]; linarith) (by rw [ratOf_fneg]; linarith)

/-- The product of finite operands stays between any two finite values the exact product lies between. -/
theorem fmul_between {a b l u : F32} (ha : finite a = true) (hb : finite b = true) (hl : finite l = true)
    (hu : finite u = true) (h1 : ratOf l ≤ ratOf a * ratOf b) (h2 : ratOf a * ratOf b ≤ ratOf u) :
    finite (fmul a b) = true ∧ ratOf l ≤ ratOf (fmul a b) ∧ ratOf (fmul a b) ≤ ratOf u := by
  have he : ratOf a * ratOf b = ((exactUnits a * exactUnits b : Int) : ℚ) / 2 ^ 149 / 2 ^ 149 := by
    unfold ratOf; push_cast; ring
  rw [he, ratOf, div_le_div_iff_of_pos_right (by positivity)] at h1 h2
  rw [le_div_iff₀ (by positivity)] at h1
  rw [div_le_iff₀ (by positivity)] at h2
  rw [fmul_of_finite ha hb, ratOf_le_iff, ratOf_le_iff]
  apply signed_round_between (by positivity) hl hu
  · rw [signed_units_mul]; exact_mod_cast h1
  · rw [signed_units_mul]; exact_mod_cast h2

/-- The quotient of finite operands, the divisor not zero, stays between any two finite values the exact quotient lies
between. -/
theorem fdiv_between {a b l u : F32} (ha : finite a = true) (hb : finite b = true) (h0 : ratOf b ≠ 0)
    (hl : finite l = true) (hu : finite u = true) (h1 : ratOf l ≤ ratOf a / ratOf b) (h2 : ratOf a / ratOf b ≤ ratOf u) :
    finite (fdiv a b) = true ∧ ratOf l ≤ ratOf (fdiv a b) ∧ ratOf (fdiv a b) ≤ ratOf u := by
  have hm : mag b ≠ 0 := fun h => h0 (ratOf_zero_iff.2 h)
  have hpos : 0 < unitsOf (mag b) := Nat.pos_of_ne_zero fun h => hm (unitsOf_eq_zero.1 h)
  have hposq : (0 : ℚ) < unitsOf (mag b) := by exact_mod_cast hpos
  have he : ratOf a / ratOf b =
      ((if signBit a ^^ signBit b then -(unitsOf (mag a) : Int) else (unitsOf (mag a) : Int) : Int) : ℚ) /
        (unitsOf (mag b) : ℚ) := by
    unfold ratOf exactUnits
    cases signBit a <;> cases signBit b <;> simp <;> field_simp
  have hs : ∀ e : Int, (if signBit a ^^ signBit b then -((unitsOf (mag a) * 2 ^ 149 : Nat) : Int)
      else ((unitsOf (mag a) * 2 ^ 149 : Nat) : Int)) =
      (if signBit a ^^ signBit b then -(unitsOf (mag a) : Int) else (unitsOf (mag a) : Int)) * 2 ^ 149 := by
    intro _; split <;> push_cast <;> ring
  rw [he, ratOf] at h1 h2
  rw [div_le_div_iff₀ (by positivity) hposq] at h1
  rw [div_le_div_iff₀ hposq (by positivity)] at h2
  rw [fdiv_of_finite ha hb hm, ratOf_le_iff, ratOf_le_iff]
  apply signed_round_between hpos hl hu
  · rw [hs 0]; exact_mod_cast h1
  · rw [hs 0]; exact_mod_cast h2

/-- An exact sum that is a binary32 value is the result. -/
theorem fadd_exact {a b w : F32} (ha : finite a = true) (hb : finite b = true) (hw : finite w = true)
    (h : ratOf a + ratOf b = ratOf w) : finite (fadd a b) = true ∧ ratOf (fadd a b) = ratOf w :=
  have := fadd_between ha hb hw hw h.ge h.le
  ⟨this.1, le_antisymm this.2.2 this.2.1⟩

/-- An exact difference that is a binary32 value is the result. -/
theorem fsub_exact {a b w : F32} (ha : finite a = true) (hb : finite b = true) (hw : finite w = true)
    (h : ratOf a - ratOf b = ratOf w) : finite (fsub a b) = true ∧ ratOf (fsub a b) = ratOf w :=
  have := fsub_between ha hb hw hw h.ge h.le
  ⟨this.1, le_antisymm this.2.2 this.2.1⟩

/-- An exact product that is a binary32 value is the result. -/
theorem fmul_exact {a b w : F32} (ha : finite a = true) (hb : finite b = true) (hw : finite w = true)
    (h : ratOf a * ratOf b = ratOf w) : finite (fmul a b) = true ∧ ratOf (fmul a b) = ratOf w :=
  have := fmul_between ha hb hw hw h.ge h.le
  ⟨this.1, le_antisymm this.2.2 this.2.1⟩

/-- An exact quotient that is a binary32 value is the result. -/
theorem fdiv_exact {a b w : F32} (ha : finite a = true) (hb : finite b = true) (h0 : ratOf b ≠ 0)
    (hw : finite w = true) (h : ratOf a / ratOf b = ratOf w) :
    finite (fdiv a b) = true ∧ ratOf (fdiv a b) = ratOf w :=
  have := fdiv_between ha hb h0 hw hw h.ge h.le
  ⟨this.1, le_antisymm this.2.2 this.2.1⟩

/-- A sum of finite operands is -0.0 only where both are negative zeros or negative. -/
theorem signBit_fadd_of_nonneg {a b : F32} (ha : finite a = true) (hb : finite b = true)
    (h : 0 ≤ ratOf a + ratOf b) (hs : signBit a = false ∨ signBit b = false) : signBit (fadd a b) = false := by
  rw [fadd_of_finite ha hb]
  unfold faddFinite
  dsimp only
  rw [ratOf_add_eq, le_div_iff₀ (by positivity)] at h
  rw [zero_mul] at h
  have h' : 0 ≤ exactUnits a + exactUnits b := by exact_mod_cast h
  split
  · rw [signBit_ofMag _ (by norm_num)]
    rcases hs with hs | hs <;> simp [hs]
  · rw [signBit_ofMag _ (roundMag_lt _ _)]
    simpa using h'

theorem signBit_fmul {a b : F32} (ha : finite a = true) (hb : finite b = true) :
    signBit (fmul a b) = (signBit a ^^ signBit b) := by
  rw [fmul_of_finite ha hb, fmulFinite, signBit_ofMag _ (roundMag_lt _ _)]

theorem signBit_fdiv {a b : F32} (ha : finite a = true) (hb : finite b = true) (h0 : ratOf b ≠ 0) :
    signBit (fdiv a b) = (signBit a ^^ signBit b) := by
  rw [fdiv_of_finite ha hb (fun h => h0 (ratOf_zero_iff.2 h)), fdivFinite, signBit_ofMag _ (roundMag_lt _ _)]

/-! ### The literals -/

@[simp] theorem ratOf_f0 : ratOf f0 = 0 := by
  have : exactUnits f0 = 0 := by decide
  simp [ratOf, this]

theorem exactUnits_f1 : exactUnits f1 = 2 ^ 149 := by decide
theorem exactUnits_fHalf : exactUnits fHalf = 2 ^ 148 := by decide
theorem exactUnits_fQuarter : exactUnits fQuarter = 2 ^ 147 := by decide
theorem exactUnits_f2 : exactUnits f2 = 2 ^ 150 := by decide
theorem exactUnits_fNeg1 : exactUnits fNeg1 = -2 ^ 149 := by decide

@[simp] theorem ratOf_f1 : ratOf f1 = 1 := by rw [ratOf, exactUnits_f1]; norm_num
@[simp] theorem ratOf_fHalf : ratOf fHalf = 1 / 2 := by rw [ratOf, exactUnits_fHalf]; norm_num
@[simp] theorem ratOf_fQuarter : ratOf fQuarter = 1 / 4 := by rw [ratOf, exactUnits_fQuarter]; norm_num
@[simp] theorem ratOf_f2 : ratOf f2 = 2 := by rw [ratOf, exactUnits_f2]; norm_num
@[simp] theorem ratOf_fNeg1 : ratOf fNeg1 = -1 := by rw [ratOf, exactUnits_fNeg1]; norm_num

@[simp] theorem finite_f0 : finite f0 = true := by decide
@[simp] theorem finite_f1 : finite f1 = true := by decide
@[simp] theorem finite_fHalf : finite fHalf = true := by decide
@[simp] theorem finite_fQuarter : finite fQuarter = true := by decide
@[simp] theorem finite_f2 : finite f2 = true := by decide
@[simp] theorem finite_fNeg1 : finite fNeg1 = true := by decide

/-! ### Comparisons with a NaN or an infinity -/

theorem finite_of_between {l u v : F32} (hl : finite l = true) (hu : finite u = true)
    (h1 : fle l v = true) (h2 : fle v u = true) : finite v = true := by
  have hk : ∀ w : F32, finite w = true → -(infMag : Int) < orderKey w ∧ orderKey w < infMag := by
    intro w hw; rw [finite_iff] at hw; unfold orderKey; split <;> omega
  have h3 := hk l hl
  have h4 := hk u hu
  simp only [fle, Bool.and_eq_true, decide_eq_true_eq] at h1 h2
  rw [finite_iff]
  have h5 := h1.2
  have h6 := h2.2
  have hv : orderKey v = mag v ∨ orderKey v = -(mag v : Int) := by unfold orderKey; split <;> simp
  omega

end Sys2Proof.Machine
end

