-- ==== Sys2Proof/Laws/Decode.lean ====
section
/-! SUPPORT. The fields of a command word, as numbers and as the encoder lays them out (spec/30_encoding.md R70). -/

namespace Sys2Proof

theorem opField_toNat (cw : Word) : (opField cw).toNat = cw.toNat % 256 := by simp [opField]

theorem immField_toNat (cw : Word) : (immField cw).toNat = cw.toNat / 256 % 256 := by
  simp [immField, Nat.shiftRight_eq_div_pow]

theorem rsvField_toNat (cw : Word) : (rsvField cw).toNat = cw.toNat / 65536 := by
  simp [rsvField, Nat.shiftRight_eq_div_pow]; omega

theorem commandWord_toNat (op imm : BitVec 8) : (commandWord op imm).toNat = imm.toNat * 256 + op.toNat := by
  have h1 := op.isLt
  simp only [commandWord, BitVec.toNat_append, BitVec.toNat_ofNat, Nat.zero_mod, Nat.zero_shiftLeft, Nat.zero_or]
  rw [← Nat.shiftLeft_add_eq_or_of_lt h1, Nat.shiftLeft_eq]

theorem opField_commandWord (op imm : BitVec 8) : opField (commandWord op imm) = op := by
  apply BitVec.eq_of_toNat_eq
  rw [opField_toNat, commandWord_toNat]
  have := op.isLt
  omega

theorem immField_commandWord (op imm : BitVec 8) : immField (commandWord op imm) = imm := by
  apply BitVec.eq_of_toNat_eq
  rw [immField_toNat, commandWord_toNat]
  have := op.isLt
  have := imm.isLt
  omega

theorem rsvField_commandWord (op imm : BitVec 8) : rsvField (commandWord op imm) = 0#16 := by
  apply BitVec.eq_of_toNat_eq
  rw [rsvField_toNat, commandWord_toNat]
  have := op.isLt
  have := imm.isLt
  simp; omega

/-- A word with RSV = 0 is the command word of its own two other fields. -/
theorem commandWord_fields {cw : Word} (h : rsvField cw = 0#16) : commandWord (opField cw) (immField cw) = cw := by
  apply BitVec.eq_of_toNat_eq
  rw [commandWord_toNat, opField_toNat, immField_toNat]
  have h1 := congrArg BitVec.toNat h
  rw [rsvField_toNat] at h1
  simp at h1
  omega

/-- Where decoding answers, the operand byte is 0 or the command's own, and RSV is 0. -/
theorem rsvField_of_decode {c : Command} {i : Instr} (h : decode c = .ok i) : rsvField c.cw = 0#16 := by
  unfold decode at h
  split at h
  · assumption
  · cases h

theorem decode_of_rsv {c : Command} (h : rsvField c.cw = 0#16) : decode c = decodeOp c.cw c.dw := by
  rw [decode, if_pos h]

end Sys2Proof
end

