-- ==== Sys2Proof/Laws/State.lean ====
section
/-! SUPPORT. One lemma per field per update of the state, so that no proof unfolds a record update. -/

namespace Sys2Proof.Machine

/-! ### A condition is recorded -/

@[simp] theorem State.detect_oscPhase (c : Condition) (s : State) : (s.detect c).oscPhase = s.oscPhase := rfl
@[simp] theorem State.detect_oscInc (c : Condition) (s : State) : (s.detect c).oscInc = s.oscInc := rfl
@[simp] theorem State.detect_oscFreq (c : Condition) (s : State) : (s.detect c).oscFreq = s.oscFreq := rfl
@[simp] theorem State.detect_oscWave (c : Condition) (s : State) : (s.detect c).oscWave = s.oscWave := rfl
@[simp] theorem State.detect_oscOut (c : Condition) (s : State) : (s.detect c).oscOut = s.oscOut := rfl
@[simp] theorem State.detect_subPhase (c : Condition) (s : State) : (s.detect c).subPhase = s.subPhase := rfl
@[simp] theorem State.detect_subInc (c : Condition) (s : State) : (s.detect c).subInc = s.subInc := rfl
@[simp] theorem State.detect_subCarrier (c : Condition) (s : State) : (s.detect c).subCarrier = s.subCarrier := rfl
@[simp] theorem State.detect_subOct (c : Condition) (s : State) : (s.detect c).subOct = s.subOct := rfl
@[simp] theorem State.detect_subOut (c : Condition) (s : State) : (s.detect c).subOut = s.subOut := rfl
@[simp] theorem State.detect_sr (c : Condition) (s : State) : (s.detect c).sr = s.sr := rfl
@[simp] theorem State.detect_status (c : Condition) (s : State) : (s.detect c).status = recordCondition c s.status := rfl
@[simp] theorem State.detect_respPort (c : Condition) (s : State) : (s.detect c).respPort = s.respPort := rfl
@[simp] theorem State.detect_cmdPort (c : Condition) (s : State) : (s.detect c).cmdPort = s.cmdPort := rfl
@[simp] theorem State.detect_respTaken (c : Condition) (s : State) : (s.detect c).respTaken = s.respTaken := rfl

/-! ### A condition is recorded, if -/

@[simp] theorem State.detectIf_oscPhase (b : Bool) (c : Condition) (s : State) : (s.detectIf b c).oscPhase = s.oscPhase := by cases b <;> rfl
@[simp] theorem State.detectIf_oscInc (b : Bool) (c : Condition) (s : State) : (s.detectIf b c).oscInc = s.oscInc := by cases b <;> rfl
@[simp] theorem State.detectIf_oscFreq (b : Bool) (c : Condition) (s : State) : (s.detectIf b c).oscFreq = s.oscFreq := by cases b <;> rfl
@[simp] theorem State.detectIf_oscWave (b : Bool) (c : Condition) (s : State) : (s.detectIf b c).oscWave = s.oscWave := by cases b <;> rfl
@[simp] theorem State.detectIf_oscOut (b : Bool) (c : Condition) (s : State) : (s.detectIf b c).oscOut = s.oscOut := by cases b <;> rfl
@[simp] theorem State.detectIf_subPhase (b : Bool) (c : Condition) (s : State) : (s.detectIf b c).subPhase = s.subPhase := by cases b <;> rfl
@[simp] theorem State.detectIf_subInc (b : Bool) (c : Condition) (s : State) : (s.detectIf b c).subInc = s.subInc := by cases b <;> rfl
@[simp] theorem State.detectIf_subCarrier (b : Bool) (c : Condition) (s : State) : (s.detectIf b c).subCarrier = s.subCarrier := by cases b <;> rfl
@[simp] theorem State.detectIf_subOct (b : Bool) (c : Condition) (s : State) : (s.detectIf b c).subOct = s.subOct := by cases b <;> rfl
@[simp] theorem State.detectIf_subOut (b : Bool) (c : Condition) (s : State) : (s.detectIf b c).subOut = s.subOut := by cases b <;> rfl
@[simp] theorem State.detectIf_sr (b : Bool) (c : Condition) (s : State) : (s.detectIf b c).sr = s.sr := by cases b <;> rfl
@[simp] theorem State.detectIf_status (b : Bool) (c : Condition) (s : State) : (s.detectIf b c).status = if b then recordCondition c s.status else s.status := by cases b <;> rfl
@[simp] theorem State.detectIf_respPort (b : Bool) (c : Condition) (s : State) : (s.detectIf b c).respPort = s.respPort := by cases b <;> rfl
@[simp] theorem State.detectIf_cmdPort (b : Bool) (c : Condition) (s : State) : (s.detectIf b c).cmdPort = s.cmdPort := by cases b <;> rfl
@[simp] theorem State.detectIf_respTaken (b : Bool) (c : Condition) (s : State) : (s.detectIf b c).respTaken = s.respTaken := by cases b <;> rfl

/-! ### Conditions are cleared -/

@[simp] theorem State.clearConditions_oscPhase (s : State) : (s.clearConditions).oscPhase = s.oscPhase := rfl
@[simp] theorem State.clearConditions_oscInc (s : State) : (s.clearConditions).oscInc = s.oscInc := rfl
@[simp] theorem State.clearConditions_oscFreq (s : State) : (s.clearConditions).oscFreq = s.oscFreq := rfl
@[simp] theorem State.clearConditions_oscWave (s : State) : (s.clearConditions).oscWave = s.oscWave := rfl
@[simp] theorem State.clearConditions_oscOut (s : State) : (s.clearConditions).oscOut = s.oscOut := rfl
@[simp] theorem State.clearConditions_subPhase (s : State) : (s.clearConditions).subPhase = s.subPhase := rfl
@[simp] theorem State.clearConditions_subInc (s : State) : (s.clearConditions).subInc = s.subInc := rfl
@[simp] theorem State.clearConditions_subCarrier (s : State) : (s.clearConditions).subCarrier = s.subCarrier := rfl
@[simp] theorem State.clearConditions_subOct (s : State) : (s.clearConditions).subOct = s.subOct := rfl
@[simp] theorem State.clearConditions_subOut (s : State) : (s.clearConditions).subOut = s.subOut := rfl
@[simp] theorem State.clearConditions_sr (s : State) : (s.clearConditions).sr = s.sr := rfl
@[simp] theorem State.clearConditions_status (s : State) : (s.clearConditions).status = 0x00000000#32 := rfl
@[simp] theorem State.clearConditions_respPort (s : State) : (s.clearConditions).respPort = s.respPort := rfl
@[simp] theorem State.clearConditions_cmdPort (s : State) : (s.clearConditions).cmdPort = s.cmdPort := rfl
@[simp] theorem State.clearConditions_respTaken (s : State) : (s.clearConditions).respTaken = s.respTaken := rfl

/-! ### An illegal command pair -/

@[simp] theorem performIllegal_oscPhase (s : State) : (performIllegal s).oscPhase = s.oscPhase := rfl
@[simp] theorem performIllegal_oscInc (s : State) : (performIllegal s).oscInc = s.oscInc := rfl
@[simp] theorem performIllegal_oscFreq (s : State) : (performIllegal s).oscFreq = s.oscFreq := rfl
@[simp] theorem performIllegal_oscWave (s : State) : (performIllegal s).oscWave = s.oscWave := rfl
@[simp] theorem performIllegal_oscOut (s : State) : (performIllegal s).oscOut = s.oscOut := rfl
@[simp] theorem performIllegal_subPhase (s : State) : (performIllegal s).subPhase = s.subPhase := rfl
@[simp] theorem performIllegal_subInc (s : State) : (performIllegal s).subInc = s.subInc := rfl
@[simp] theorem performIllegal_subCarrier (s : State) : (performIllegal s).subCarrier = s.subCarrier := rfl
@[simp] theorem performIllegal_subOct (s : State) : (performIllegal s).subOct = s.subOct := rfl
@[simp] theorem performIllegal_subOut (s : State) : (performIllegal s).subOut = s.subOut := rfl
@[simp] theorem performIllegal_sr (s : State) : (performIllegal s).sr = s.sr := rfl
@[simp] theorem performIllegal_status (s : State) : (performIllegal s).status = recordCondition .illegalWord s.status := rfl
@[simp] theorem performIllegal_respPort (s : State) : (performIllegal s).respPort = s.respPort := rfl
@[simp] theorem performIllegal_cmdPort (s : State) : (performIllegal s).cmdPort = s.cmdPort := rfl
@[simp] theorem performIllegal_respTaken (s : State) : (performIllegal s).respTaken = s.respTaken := rfl

/-! ### A response -/

@[simp] theorem State.respond_oscPhase (v : Word) (s : State) : (s.respond v).oscPhase = s.oscPhase := rfl
@[simp] theorem State.respond_oscInc (v : Word) (s : State) : (s.respond v).oscInc = s.oscInc := rfl
@[simp] theorem State.respond_oscFreq (v : Word) (s : State) : (s.respond v).oscFreq = s.oscFreq := rfl
@[simp] theorem State.respond_oscWave (v : Word) (s : State) : (s.respond v).oscWave = s.oscWave := rfl
@[simp] theorem State.respond_oscOut (v : Word) (s : State) : (s.respond v).oscOut = s.oscOut := rfl
@[simp] theorem State.respond_subPhase (v : Word) (s : State) : (s.respond v).subPhase = s.subPhase := rfl
@[simp] theorem State.respond_subInc (v : Word) (s : State) : (s.respond v).subInc = s.subInc := rfl
@[simp] theorem State.respond_subCarrier (v : Word) (s : State) : (s.respond v).subCarrier = s.subCarrier := rfl
@[simp] theorem State.respond_subOct (v : Word) (s : State) : (s.respond v).subOct = s.subOct := rfl
@[simp] theorem State.respond_subOut (v : Word) (s : State) : (s.respond v).subOut = s.subOut := rfl
@[simp] theorem State.respond_sr (v : Word) (s : State) : (s.respond v).sr = s.sr := rfl
@[simp] theorem State.respond_status (v : Word) (s : State) : (s.respond v).status = s.status := rfl
@[simp] theorem State.respond_respPort (v : Word) (s : State) : (s.respond v).respPort = some v := rfl
@[simp] theorem State.respond_cmdPort (v : Word) (s : State) : (s.respond v).cmdPort = s.cmdPort := rfl
@[simp] theorem State.respond_respTaken (v : Word) (s : State) : (s.respond v).respTaken = s.respTaken := rfl

/-! ### The host takes the response -/

@[simp] theorem State.takeResponse_oscPhase (s : State) : (s.takeResponse).oscPhase = s.oscPhase := rfl
@[simp] theorem State.takeResponse_oscInc (s : State) : (s.takeResponse).oscInc = s.oscInc := rfl
@[simp] theorem State.takeResponse_oscFreq (s : State) : (s.takeResponse).oscFreq = s.oscFreq := rfl
@[simp] theorem State.takeResponse_oscWave (s : State) : (s.takeResponse).oscWave = s.oscWave := rfl
@[simp] theorem State.takeResponse_oscOut (s : State) : (s.takeResponse).oscOut = s.oscOut := rfl
@[simp] theorem State.takeResponse_subPhase (s : State) : (s.takeResponse).subPhase = s.subPhase := rfl
@[simp] theorem State.takeResponse_subInc (s : State) : (s.takeResponse).subInc = s.subInc := rfl
@[simp] theorem State.takeResponse_subCarrier (s : State) : (s.takeResponse).subCarrier = s.subCarrier := rfl
@[simp] theorem State.takeResponse_subOct (s : State) : (s.takeResponse).subOct = s.subOct := rfl
@[simp] theorem State.takeResponse_subOut (s : State) : (s.takeResponse).subOut = s.subOut := rfl
@[simp] theorem State.takeResponse_sr (s : State) : (s.takeResponse).sr = s.sr := rfl
@[simp] theorem State.takeResponse_status (s : State) : (s.takeResponse).status = s.status := rfl
@[simp] theorem State.takeResponse_respPort (s : State) : (s.takeResponse).respPort = none := rfl
@[simp] theorem State.takeResponse_cmdPort (s : State) : (s.takeResponse).cmdPort = s.cmdPort := rfl
@[simp] theorem State.takeResponse_respTaken (s : State) : (s.takeResponse).respTaken = s.respTaken ++ s.respPort.toList := rfl

/-! ### The host sends its next input -/

@[simp] theorem State.sendNext_oscPhase (rest : List HostInput) (s : State) : (s.sendNext rest).oscPhase = s.oscPhase := rfl
@[simp] theorem State.sendNext_oscInc (rest : List HostInput) (s : State) : (s.sendNext rest).oscInc = s.oscInc := rfl
@[simp] theorem State.sendNext_oscFreq (rest : List HostInput) (s : State) : (s.sendNext rest).oscFreq = s.oscFreq := rfl
@[simp] theorem State.sendNext_oscWave (rest : List HostInput) (s : State) : (s.sendNext rest).oscWave = s.oscWave := rfl
@[simp] theorem State.sendNext_oscOut (rest : List HostInput) (s : State) : (s.sendNext rest).oscOut = s.oscOut := rfl
@[simp] theorem State.sendNext_subPhase (rest : List HostInput) (s : State) : (s.sendNext rest).subPhase = s.subPhase := rfl
@[simp] theorem State.sendNext_subInc (rest : List HostInput) (s : State) : (s.sendNext rest).subInc = s.subInc := rfl
@[simp] theorem State.sendNext_subCarrier (rest : List HostInput) (s : State) : (s.sendNext rest).subCarrier = s.subCarrier := rfl
@[simp] theorem State.sendNext_subOct (rest : List HostInput) (s : State) : (s.sendNext rest).subOct = s.subOct := rfl
@[simp] theorem State.sendNext_subOut (rest : List HostInput) (s : State) : (s.sendNext rest).subOut = s.subOut := rfl
@[simp] theorem State.sendNext_sr (rest : List HostInput) (s : State) : (s.sendNext rest).sr = s.sr := rfl
@[simp] theorem State.sendNext_status (rest : List HostInput) (s : State) : (s.sendNext rest).status = s.status := rfl
@[simp] theorem State.sendNext_respPort (rest : List HostInput) (s : State) : (s.sendNext rest).respPort = none := rfl
@[simp] theorem State.sendNext_cmdPort (rest : List HostInput) (s : State) : (s.sendNext rest).cmdPort = rest := rfl
@[simp] theorem State.sendNext_respTaken (rest : List HostInput) (s : State) : (s.sendNext rest).respTaken = s.respTaken ++ s.respPort.toList := rfl

/-! ### Power-on reset -/

@[simp] theorem State.powerOn_oscPhase (s : State) : (s.powerOn).oscPhase = State.reset.oscPhase := rfl
@[simp] theorem State.powerOn_oscInc (s : State) : (s.powerOn).oscInc = State.reset.oscInc := rfl
@[simp] theorem State.powerOn_oscFreq (s : State) : (s.powerOn).oscFreq = State.reset.oscFreq := rfl
@[simp] theorem State.powerOn_oscWave (s : State) : (s.powerOn).oscWave = State.reset.oscWave := rfl
@[simp] theorem State.powerOn_oscOut (s : State) : (s.powerOn).oscOut = State.reset.oscOut := rfl
@[simp] theorem State.powerOn_subPhase (s : State) : (s.powerOn).subPhase = State.reset.subPhase := rfl
@[simp] theorem State.powerOn_subInc (s : State) : (s.powerOn).subInc = State.reset.subInc := rfl
@[simp] theorem State.powerOn_subCarrier (s : State) : (s.powerOn).subCarrier = State.reset.subCarrier := rfl
@[simp] theorem State.powerOn_subOct (s : State) : (s.powerOn).subOct = State.reset.subOct := rfl
@[simp] theorem State.powerOn_subOut (s : State) : (s.powerOn).subOut = State.reset.subOut := rfl
@[simp] theorem State.powerOn_sr (s : State) : (s.powerOn).sr = State.reset.sr := rfl
@[simp] theorem State.powerOn_status (s : State) : (s.powerOn).status = State.reset.status := rfl
@[simp] theorem State.powerOn_respPort (s : State) : (s.powerOn).respPort = State.reset.respPort := rfl
@[simp] theorem State.powerOn_cmdPort (s : State) : (s.powerOn).cmdPort = s.cmdPort := rfl
@[simp] theorem State.powerOn_respTaken (s : State) : (s.powerOn).respTaken = s.respTaken := rfl

/-! ### The recompute -/

@[simp] theorem recompute_oscPhase (s : State) : (recompute s).oscPhase = s.oscPhase := by simp [recompute]
@[simp] theorem recompute_oscInc (s : State) : (recompute s).oscInc = increment s.oscFreq s.sr := by simp [recompute]
@[simp] theorem recompute_oscFreq (s : State) : (recompute s).oscFreq = s.oscFreq := by simp [recompute]
@[simp] theorem recompute_oscWave (s : State) : (recompute s).oscWave = s.oscWave := by simp [recompute]
@[simp] theorem recompute_oscOut (s : State) : (recompute s).oscOut = s.oscOut := by simp [recompute]
@[simp] theorem recompute_subPhase (s : State) : (recompute s).subPhase = s.subPhase := by simp [recompute]
@[simp] theorem recompute_subInc (s : State) : (recompute s).subInc = increment (subHertz s.subCarrier s.subOct) s.sr := by simp [recompute]
@[simp] theorem recompute_subCarrier (s : State) : (recompute s).subCarrier = s.subCarrier := by simp [recompute]
@[simp] theorem recompute_subOct (s : State) : (recompute s).subOct = s.subOct := by simp [recompute]
@[simp] theorem recompute_subOut (s : State) : (recompute s).subOut = s.subOut := by simp [recompute]
@[simp] theorem recompute_sr (s : State) : (recompute s).sr = s.sr := by simp [recompute]
@[simp] theorem recompute_status (s : State) : (recompute s).status = 
    if overNyquist s.oscFreq s.sr || overNyquist (subHertz s.subCarrier s.subOct) s.sr
      then recordCondition .configOutOfRange s.status else s.status := by simp [recompute]
@[simp] theorem recompute_respPort (s : State) : (recompute s).respPort = s.respPort := by simp [recompute]
@[simp] theorem recompute_cmdPort (s : State) : (recompute s).cmdPort = s.cmdPort := by simp [recompute]
@[simp] theorem recompute_respTaken (s : State) : (recompute s).respTaken = s.respTaken := by simp [recompute]

/-! ### A command placed on the port -/

@[simp] theorem State.withFetchWord_oscPhase (nbits w : Nat) (s : State) : (s.withFetchWord nbits w).oscPhase = s.oscPhase := rfl
@[simp] theorem State.withFetchWord_oscInc (nbits w : Nat) (s : State) : (s.withFetchWord nbits w).oscInc = s.oscInc := rfl
@[simp] theorem State.withFetchWord_oscFreq (nbits w : Nat) (s : State) : (s.withFetchWord nbits w).oscFreq = s.oscFreq := rfl
@[simp] theorem State.withFetchWord_oscWave (nbits w : Nat) (s : State) : (s.withFetchWord nbits w).oscWave = s.oscWave := rfl
@[simp] theorem State.withFetchWord_oscOut (nbits w : Nat) (s : State) : (s.withFetchWord nbits w).oscOut = s.oscOut := rfl
@[simp] theorem State.withFetchWord_subPhase (nbits w : Nat) (s : State) : (s.withFetchWord nbits w).subPhase = s.subPhase := rfl
@[simp] theorem State.withFetchWord_subInc (nbits w : Nat) (s : State) : (s.withFetchWord nbits w).subInc = s.subInc := rfl
@[simp] theorem State.withFetchWord_subCarrier (nbits w : Nat) (s : State) : (s.withFetchWord nbits w).subCarrier = s.subCarrier := rfl
@[simp] theorem State.withFetchWord_subOct (nbits w : Nat) (s : State) : (s.withFetchWord nbits w).subOct = s.subOct := rfl
@[simp] theorem State.withFetchWord_subOut (nbits w : Nat) (s : State) : (s.withFetchWord nbits w).subOut = s.subOut := rfl
@[simp] theorem State.withFetchWord_sr (nbits w : Nat) (s : State) : (s.withFetchWord nbits w).sr = s.sr := rfl
@[simp] theorem State.withFetchWord_status (nbits w : Nat) (s : State) : (s.withFetchWord nbits w).status = s.status := rfl
@[simp] theorem State.withFetchWord_respPort (nbits w : Nat) (s : State) : (s.withFetchWord nbits w).respPort = s.respPort := rfl
@[simp] theorem State.withFetchWord_cmdPort (nbits w : Nat) (s : State) : (s.withFetchWord nbits w).cmdPort = .command (tableCommand nbits w) :: s.cmdPort := rfl
@[simp] theorem State.withFetchWord_respTaken (nbits w : Nat) (s : State) : (s.withFetchWord nbits w).respTaken = s.respTaken := rfl

end Sys2Proof.Machine
end

