-- ==== Sys2Proof/Laws/Ops.lean ====
section
/-! SUPPORT. One lemma per shared operation, saying everything it can do, and the legal contents of the registers in terms
of real values. -/

namespace Sys2Proof.Machine

/-- `recompute` writes the two increments and, where it clamps, STATUS.CFG; nothing else. -/
theorem recompute_eq (s : State) :
    recompute s = { s with
      oscInc := increment s.oscFreq s.sr
      subInc := increment (subHertz s.subCarrier s.subOct) s.sr
      status := if overNyquist s.oscFreq s.sr || overNyquist (subHertz s.subCarrier s.subOct) s.sr
        then s.status ||| cfgBit else s.status } := by
  ext1 <;> simp [recordCondition, Condition.statusBit]

/-- A recorded condition changes STATUS alone. -/
theorem detectIf_eq (b : Bool) (c : Condition) (s : State) :
    s.detectIf b c = { s with status := if b then s.status ||| c.statusBit else s.status } := by
  cases b <;> rfl

@[simp] theorem immediate_eq (imm : BitVec 8) : immediate imm = imm.toNat := by
  have := imm.isLt
  simp [immediate, zext32]; omega

/-- READ writes the response and, for a reserved index, STATUS.ILL; nothing else. -/
theorem execRead_eq (imm : BitVec 8) (s : State) :
    execRead imm s = .next { s with
      respPort := some ((readRegister imm s).getD 0x00000000#32)
      status := if (readRegister imm s).isSome then s.status else s.status ||| illBit } := by
  unfold execRead
  cases readRegister imm s <;> rfl

/-- The readable indices are 0..11. -/
theorem readRegister_isSome (imm : BitVec 8) (s : State) :
    (readRegister imm s).isSome = decide (imm.toNat < 12) := by
  unfold readRegister
  rw [immediate_eq]
  split <;> simp_all
  omega

/-- The four things a step can be: idle, a command performed, an illegal pair, power-on reset. -/
theorem step_cases (s : State) :
    (s.cmdPort = [] ∧ step s = .next s.takeResponse) ∨
    (∃ c i rest, s.cmdPort = .command c :: rest ∧ decode c = .ok i ∧ step s = exec i (s.sendNext rest)) ∨
    (∃ c e rest, s.cmdPort = .command c :: rest ∧ decode c = .error e ∧
      step s = .next (performIllegal (s.sendNext rest))) ∨
    (∃ rest, s.cmdPort = .powerOnReset :: rest ∧ step s = .next (s.sendNext rest).powerOn) := by
  unfold step
  rcases h : s.cmdPort with _ | ⟨_ | c, rest⟩
  · exact .inl ⟨rfl, rfl⟩
  · rename_i c
    cases hd : decode c with
    | ok i => exact .inr (.inl ⟨c, i, rest, rfl, hd, by simp [perform, performCommand, hd]⟩)
    | error e => exact .inr (.inr (.inl ⟨c, e, rest, rfl, hd, by simp [perform, performCommand, hd]⟩))
  · exact .inr (.inr (.inr ⟨rest, rfl, rfl⟩))

/-! ### The legal contents -/

theorem signBit_false_of_nonneg {v : F32} (h : 0 ≤ ratOf v) (hz : v ≠ negZero) : signBit v = false := by
  by_contra hs
  rw [Bool.not_eq_false] at hs
  have h1 : exactUnits v = -(unitsOf (mag v) : Int) := by simp [exactUnits, hs]
  have h2 : exactUnits f0 ≤ exactUnits v := by rw [← ratOf_le_iff]; simpa using h
  rw [h1, show exactUnits f0 = 0 by decide] at h2
  have h3 : mag v = 0 := unitsOf_eq_zero.1 (by omega)
  exact hz (eq_of_sign_mag (by rw [hs]; decide) (by rw [h3]; decide))

theorem ratOf_nonneg_of_signBit {v : F32} (h : signBit v = false) : 0 ≤ ratOf v := by
  have : exactUnits v = unitsOf (mag v) := by simp [exactUnits, h]
  unfold ratOf; rw [this]; positivity

theorem ne_negZero_of_signBit {v : F32} (h : signBit v = false) : v ≠ negZero := by
  rintro rfl; exact absurd h (by decide)

theorem finite_of_flt_fle {v l u : F32} (hl : finite l = true) (hu : finite u = true) (h1 : fle l v = true)
    (h2 : flt v u = true) : finite v = true := by
  refine finite_of_between hl hu h1 ?_
  simp only [flt, fle, Bool.and_eq_true, decide_eq_true_eq] at h2 ⊢
  exact ⟨h2.1, h2.2.le⟩

/-- A legal phase is a non-negative pattern below 1. -/
theorem legalPhase_iff {v : F32} :
    legalPhase v = true ↔ finite v = true ∧ signBit v = false ∧ ratOf v < 1 := by
  simp only [legalPhase, Bool.and_eq_true, bne_iff_ne, ne_eq]
  constructor
  · rintro ⟨⟨h1, h2⟩, h3⟩
    have hf := finite_of_flt_fle finite_f0 finite_f1 h1 h2
    rw [fle_iff finite_f0 hf, ratOf_f0] at h1
    rw [flt_iff hf finite_f1, ratOf_f1] at h2
    exact ⟨hf, signBit_false_of_nonneg h1 h3, h2⟩
  · rintro ⟨hf, hs, h⟩
    refine ⟨⟨?_, ?_⟩, ne_negZero_of_signBit hs⟩
    · rw [fle_iff finite_f0 hf, ratOf_f0]; exact ratOf_nonneg_of_signBit hs
    · rw [flt_iff hf finite_f1, ratOf_f1]; exact h

/-- A legal increment is a value in [0, 1/2]. -/
theorem legalIncrement_iff {v : F32} :
    legalIncrement v = true ↔ finite v = true ∧ 0 ≤ ratOf v ∧ ratOf v ≤ 1 / 2 := by
  simp only [legalIncrement, Bool.and_eq_true]
  constructor
  · rintro ⟨h1, h2⟩
    have hf := finite_of_between finite_f0 finite_fHalf h1 h2
    rw [fle_iff finite_f0 hf, ratOf_f0] at h1
    rw [fle_iff hf finite_fHalf, ratOf_fHalf] at h2
    exact ⟨hf, h1, h2⟩
  · rintro ⟨hf, h1, h2⟩
    rw [fle_iff finite_f0 hf, ratOf_f0, fle_iff hf finite_fHalf, ratOf_fHalf]
    exact ⟨h1, h2⟩

/-- A legal frequency is a finite non-negative pattern. -/
theorem legalHertz_iff {v : F32} : legalHertz v = true ↔ finite v = true ∧ signBit v = false := by
  simp only [legalHertz, Bool.and_eq_true, bne_iff_ne, ne_eq]
  constructor
  · rintro ⟨⟨hf, h1⟩, h3⟩
    rw [fle_iff finite_f0 hf, ratOf_f0] at h1
    exact ⟨hf, signBit_false_of_nonneg h1 h3⟩
  · rintro ⟨hf, hs⟩
    refine ⟨⟨hf, ?_⟩, ne_negZero_of_signBit hs⟩
    rw [fle_iff finite_f0 hf, ratOf_f0]; exact ratOf_nonneg_of_signBit hs

/-- A legal sample rate is a finite value of at least 1. -/
theorem legalRate_iff {v : F32} : legalRate v = true ↔ finite v = true ∧ 1 ≤ ratOf v := by
  simp only [legalRate, Bool.and_eq_true]
  constructor
  · rintro ⟨hf, h1⟩
    rw [fle_iff finite_f1 hf, ratOf_f1] at h1
    exact ⟨hf, h1⟩
  · rintro ⟨hf, h1⟩
    rw [fle_iff finite_f1 hf, ratOf_f1]
    exact ⟨hf, h1⟩

end Sys2Proof.Machine
end

