-- ==== Sys2Proof/Laws/PerInstr.lean ====
section
/-! SUPPORT. The statements made for every command, one lemma per constructor. -/

namespace Sys2Proof.Laws.EncodeLegal

/-- The encoded command is well-formed: its command word is legal by the opcode map (R73, R74), and the word's fields are
the ones the encoder was given (R70). -/
def Statement (i : Instr) : Prop := (encode i).wf = true ∧ rsvField (encode i).cw = 0#16

theorem nop : Statement .nop := by unfold Statement; decide
theorem oscProc : Statement .oscProc := by unfold Statement; decide
theorem oscRst : Statement .oscRst := by unfold Statement; decide
theorem oscWave (imm : BitVec 8) : Statement (.oscWave imm) := by unfold Statement; revert imm; decide
theorem oscFreq (x : F32) : Statement (.oscFreq x) := ⟨by simp only [encode, Command.wf]; decide, by simp only [encode]; decide⟩
theorem subProc : Statement .subProc := by unfold Statement; decide
theorem subRst : Statement .subRst := by unfold Statement; decide
theorem subOct (imm : BitVec 8) : Statement (.subOct imm) := by unfold Statement; revert imm; decide
theorem subCar (x : F32) : Statement (.subCar x) := ⟨by simp only [encode, Command.wf]; decide, by simp only [encode]; decide⟩
theorem setsr (x : F32) : Statement (.setsr x) := ⟨by simp only [encode, Command.wf]; decide, by simp only [encode]; decide⟩
theorem read (imm : BitVec 8) : Statement (.read imm) := by unfold Statement; revert imm; decide
theorem clrst : Statement .clrst := by unfold Statement; decide

end Sys2Proof.Laws.EncodeLegal
end

