-- ==== Sys2Proof/Laws/SineRef.lean ====
section
/-! SUPPORT. SIN2PI_REF is no empty property: every real in [-1, 1] has a nearest binary32 value with ties to even, so
some evaluator meets it (spec/00_scope.md R7). -/

namespace Sys2Proof.Machine

/-- The pattern at place `k` of the order of binary32; +0.0 at 0. -/
def atKey (k : Int) : F32 := ofMag (decide (k < 0)) k.natAbs

theorem natAbs_lt_of_bounds {k : Int} (h1 : -(infMag : Int) < k) (h2 : k < infMag) : k.natAbs < infMag := by omega

theorem finite_atKey {k : Int} (h1 : -(infMag : Int) < k) (h2 : k < infMag) : finite (atKey k) = true := by
  have := natAbs_lt_of_bounds h1 h2
  rw [finite_iff, atKey, mag_ofMag _ (lt_trans this (by norm_num [infMag]))]; exact this

theorem mag_atKey {k : Int} (h1 : -(infMag : Int) < k) (h2 : k < infMag) : mag (atKey k) = k.natAbs := by
  rw [atKey, mag_ofMag _ (lt_trans (natAbs_lt_of_bounds h1 h2) (by norm_num [infMag]))]

theorem orderKey_atKey {k : Int} (h1 : -(infMag : Int) < k) (h2 : k < infMag) : orderKey (atKey k) = k := by
  have := natAbs_lt_of_bounds h1 h2
  have h31 : k.natAbs < 2 ^ 31 := lt_trans this (by norm_num [infMag])
  rw [orderKey, atKey, signBit_ofMag _ h31, mag_ofMag _ h31]
  by_cases hk : k < 0
  · rw [if_pos (by simpa using hk)]; omega
  · rw [if_neg (by simpa using hk)]; omega

theorem atKey_ne_negZero {k : Int} (h1 : -(infMag : Int) < k) (h2 : k < infMag) : atKey k ≠ negZero := by
  have h31 : k.natAbs < 2 ^ 31 := lt_trans (natAbs_lt_of_bounds h1 h2) (by norm_num [infMag])
  intro h
  have hm : mag (atKey k) = mag negZero := by rw [h]
  have hs : signBit (atKey k) = signBit negZero := by rw [h]
  rw [atKey, mag_ofMag _ h31, show mag negZero = 0 by decide] at hm
  rw [atKey, signBit_ofMag _ h31, show signBit negZero = true by decide] at hs
  have : k < 0 := by simpa using hs
  omega

theorem ratOf_eq_of_orderKey {v w : F32} (h : orderKey v = orderKey w) : ratOf v = ratOf w :=
  le_antisymm (orderKey_le_iff.1 h.le) (orderKey_le_iff.1 h.ge)

/-- Every real in [-1, 1] has a nearest binary32 value, ties to even. -/
theorem exists_nearest {r : ℝ} (h1 : -1 ≤ r) (h2 : r ≤ 1) : ∃ w, IsNearestReal r w := by
  let K : Int := 0x3F800000
  have hval : ∀ v : F32, finite v = true → -(infMag : Int) < orderKey v ∧ orderKey v < infMag := by
    intro v hv; rw [finite_iff] at hv; unfold orderKey; split <;> omega
  obtain ⟨k, ⟨hk1, hk2, hk3⟩, hmax⟩ :=
    Int.exists_greatest_of_bdd (P := fun k => -K ≤ k ∧ k ≤ K ∧ (ratOf (atKey k) : ℝ) ≤ r)
      ⟨K, fun k hk => hk.2.1⟩
      ⟨-K, le_refl _, by norm_num [K], by
        rw [show atKey (-K) = fNeg1 by decide, ratOf_fNeg1]; push_cast; exact h1⟩
  have b1 : -(infMag : Int) < k := by have : (infMag : Int) = 0x7F800000 := rfl; omega
  have b2 : k < infMag := by have : (infMag : Int) = 0x7F800000 := rfl; omega
  have b3 : k + 1 < infMag := by have : (infMag : Int) = 0x7F800000 := rfl; omega
  have b4 : -(infMag : Int) < k + 1 := by omega
  have hlow : ∀ v : F32, orderKey v ≤ k → (ratOf v : ℝ) ≤ ratOf (atKey k) := by
    intro v hv
    exact_mod_cast orderKey_le_iff.1 (by rw [orderKey_atKey b1 b2]; exact hv)
  have hhigh : ∀ v : F32, k + 1 ≤ orderKey v → (ratOf (atKey (k + 1)) : ℝ) ≤ ratOf v := by
    intro v hv
    exact_mod_cast orderKey_le_iff.1 (by rw [orderKey_atKey b4 b3]; exact hv)
  by_cases hr : (ratOf (atKey k) : ℝ) = r
  · refine ⟨atKey k, finite_atKey b1 b2, atKey_ne_negZero b1 b2, fun v _ => ?_⟩
    rw [hr]
    refine ⟨by simp, fun h => .inl ?_⟩
    have : (ratOf v : ℝ) = ratOf (atKey k) := by
      rw [hr]; simpa [sub_eq_zero] using h.symm
    exact_mod_cast this
  · have hlt : (ratOf (atKey k) : ℝ) < r := lt_of_le_of_ne hk3 hr
    have hgt : r < ratOf (atKey (k + 1)) := by
      by_contra hn
      rw [not_lt] at hn
      by_cases hK : k + 1 ≤ K
      · have := hmax (k + 1) ⟨by omega, hK, hn⟩
        omega
      · have hkK : k = K := by omega
        rw [hkK, show atKey K = f1 by decide, ratOf_f1] at hlt
        push_cast at hlt
        linarith
    -- the distance of any other value
    have hdist : ∀ v : F32, finite v = true →
        (r - ratOf (atKey k) ≤ |(ratOf v : ℝ) - r| ∧ (r - ratOf (atKey k) = |(ratOf v : ℝ) - r| → ratOf v = ratOf (atKey k)))
        ∨ (ratOf (atKey (k + 1)) - r ≤ |(ratOf v : ℝ) - r| ∧
          (ratOf (atKey (k + 1)) - r = |(ratOf v : ℝ) - r| → ratOf v = ratOf (atKey (k + 1)))) := by
      intro v _
      rcases le_or_gt (orderKey v) k with h | h
      · have := hlow v h
        left
        rw [abs_sub_comm, abs_of_nonneg (by linarith)]
        refine ⟨by linarith, fun he => ?_⟩
        have : (ratOf v : ℝ) = ratOf (atKey k) := by linarith
        exact_mod_cast this
      · have := hhigh v h
        right
        rw [abs_of_nonneg (by linarith)]
        refine ⟨by linarith, fun he => ?_⟩
        have : (ratOf v : ℝ) = ratOf (atKey (k + 1)) := by linarith
        exact_mod_cast this
    have habs1 : |(ratOf (atKey k) : ℝ) - r| = r - ratOf (atKey k) := by
      rw [abs_sub_comm, abs_of_nonneg (by linarith)]
    have habs2 : |(ratOf (atKey (k + 1)) : ℝ) - r| = ratOf (atKey (k + 1)) - r := by
      rw [abs_of_nonneg (by linarith)]
    have hpar : mag (atKey k) % 2 = 0 ∨ mag (atKey (k + 1)) % 2 = 0 := by
      rw [mag_atKey b1 b2, mag_atKey b4 b3]; omega
    -- the lower neighbour, or the upper one
    by_cases hc : r - ratOf (atKey k) < ratOf (atKey (k + 1)) - r ∨
        (r - ratOf (atKey k) = ratOf (atKey (k + 1)) - r ∧ mag (atKey k) % 2 = 0)
    · refine ⟨atKey k, finite_atKey b1 b2, atKey_ne_negZero b1 b2, fun v hv => ?_⟩
      rw [habs1]
      rcases hdist v hv with ⟨hd, he⟩ | ⟨hd, he⟩
      · exact ⟨hd, fun h => .inl (he h)⟩
      · rcases hc with hc | ⟨hc, hev⟩
        · exact ⟨by linarith, fun h => by linarith⟩
        · exact ⟨by linarith, fun _ => .inr hev⟩
    · rw [not_or, not_lt, not_and] at hc
      refine ⟨atKey (k + 1), finite_atKey b4 b3, atKey_ne_negZero b4 b3, fun v hv => ?_⟩
      rw [habs2]
      rcases hdist v hv with ⟨hd, he⟩ | ⟨hd, he⟩
      · refine ⟨by linarith, fun h => .inr ?_⟩
        exact hpar.resolve_left (hc.2 (by linarith [hc.1]))
      · exact ⟨hd, fun h => .inl (he h)⟩

/-- Some evaluator is correctly rounded. -/
theorem exists_sin2PiRef : ∃ sin : F32 → F32, Sin2PiRef sin := by
  choose g hg using fun x : F32 =>
    exists_nearest (Real.neg_one_le_sin (2 * Real.pi * (ratOf x : ℝ))) (Real.sin_le_one _)
  exact ⟨g, fun x _ => hg x⟩

end Sys2Proof.Machine
end

