-- ==== Sys2Proof/Tests/Slice0.lean ====
section
/-! SUPPORT. The model's own tests, each a single step with the expected values of spec/95_test_vectors.md (named in its
docstring) or worked out by hand from a rule, and for every obligation with hypotheses a witness that meets them. -/

namespace Sys2Proof.Tests

open Sys2Proof Sys2Proof.Machine

/-! ### Helpers -/

/-- The state a command leaves. -/
def after (i : Instr) (s : State) : State :=
  match exec i s with
  | .next t => t
  | .fault _ => s
  | .refused _ => s

/-- The state a step leaves. -/
def stepped (s : State) : State :=
  match step s with
  | .next t => t
  | .fault _ => s
  | .refused _ => s

/-- A block to which the host sends one command pair. -/
def sent (cw dw : Word) (s : State) : State := { s with cmdPort := [.command ⟨cw, dw⟩] }

/-- A block whose BOSC plays 4410 Hz at 44100 Hz with the given waveform, from the given phase. -/
def playing (w : BitVec 2) (phase : F32) : State :=
  { State.reset with oscWave := w, oscPhase := phase, oscInc := 0x3DCCCCCD#32, oscFreq := 0x4589D000#32 }

/-- A block whose carrier is 440.0. -/
def carrier440 : State := { State.reset with subCarrier := 0x43DC0000#32, subInc := 0x3BA377EE#32 }

/-- A block whose frequency is 440.0. -/
def freq440 : State := { State.reset with oscFreq := 0x43DC0000#32, oscInc := 0x3C2377EE#32 }

/-- An evaluator that is finite everywhere. -/
def zeroSine : F32 → F32 := fun _ => f0

/-! ### WellFormed: ill-formed words are refused -/

/-- V-D1: a reserved opcode. -/
theorem test_wf_refuses_reserved_opcode : Command.wf ⟨0x00000005#32, 0#32⟩ = false := by decide

/-- V-D1: RSV is not 0. -/
theorem test_wf_refuses_rsv : Command.wf ⟨0x00010001#32, 0#32⟩ = false := by decide

/-- V-D1: IMM8 is not 0 in form N. -/
theorem test_wf_refuses_imm_form_n : Command.wf ⟨0x00000101#32, 0#32⟩ = false := by decide

/-- V-D1: IMM8 is not 0 in form D. -/
theorem test_wf_refuses_imm_form_d : Command.wf ⟨0x00000104#32, 0x43DC0000#32⟩ = false := by decide

/-- R74: every immediate of a form I opcode is legal. -/
theorem test_wf_accepts_imm_form_i : Command.wf ⟨0x0000FF03#32, 0#32⟩ = true := by decide

/-! ### Decode: a word of every command, written out from R70 and R73 as RSV, IMM8, OP -/

theorem test_decode_nop : decode ⟨0b0000000000000000_00000000_00000000#32, 0xDEADBEEF#32⟩ = .ok .nop := rfl
theorem test_decode_oscProc : decode ⟨0b0000000000000000_00000000_00000001#32, 0#32⟩ = .ok .oscProc := rfl
theorem test_decode_oscRst : decode ⟨0b0000000000000000_00000000_00000010#32, 0#32⟩ = .ok .oscRst := rfl
theorem test_decode_oscWave :
    decode ⟨0b0000000000000000_10000001_00000011#32, 0#32⟩ = .ok (.oscWave 0x81#8) := rfl
theorem test_decode_oscFreq :
    decode ⟨0b0000000000000000_00000000_00000100#32, 0x43DC0000#32⟩ = .ok (.oscFreq 0x43DC0000#32) := rfl
theorem test_decode_subProc : decode ⟨0b0000000000000000_00000000_00010001#32, 0#32⟩ = .ok .subProc := rfl
theorem test_decode_subRst : decode ⟨0b0000000000000000_00000000_00010010#32, 0#32⟩ = .ok .subRst := rfl
theorem test_decode_subOct :
    decode ⟨0b0000000000000000_00000010_00010011#32, 0#32⟩ = .ok (.subOct 2#8) := rfl
theorem test_decode_subCar :
    decode ⟨0b0000000000000000_00000000_00010100#32, 0x472C4400#32⟩ = .ok (.subCar 0x472C4400#32) := rfl
theorem test_decode_setsr :
    decode ⟨0b0000000000000000_00000000_00100000#32, 0x473B8000#32⟩ = .ok (.setsr 0x473B8000#32) := rfl
theorem test_decode_read :
    decode ⟨0b0000000000000000_00001011_00100001#32, 0#32⟩ = .ok (.read 11#8) := rfl
theorem test_decode_clrst : decode ⟨0b0000000000000000_00000000_00100010#32, 0#32⟩ = .ok .clrst := rfl

/-- V-D1: the three cases of an illegal word. -/
theorem test_decode_illegal :
    decode ⟨0x0000001F#32, 0#32⟩ = .error .reservedOpcode ∧ decode ⟨0x80000021#32, 0#32⟩ = .error .rsvNotZero ∧
      decode ⟨0x00000122#32, 0#32⟩ = .error .immNotZero := ⟨rfl, rfl, rfl⟩

/-- R70: DW is bits 63:32 of a 64-bit row; with 32 bits it is 0. -/
theorem test_decodeTableWord :
    decodeTableWord 64 0x43DC000000000004 = some (.oscFreq 0x43DC0000#32) ∧
      decodeTableWord 32 0x00000B21 = some (.read 11#8) ∧ decodeTableWord 32 0x00000105 = none := by decide

/-- R52: the pair 00000B21 00000000 as bytes of a little-endian and of a big-endian host. -/
theorem test_host_bytes :
    commandOfBytes .little [0x21#8, 0x0B#8, 0#8, 0#8, 0#8, 0#8, 0#8, 0x80#8] =
      some (⟨0x00000B21#32, 0x80000000#32⟩, []) ∧
    commandOfBytes .big [0#8, 0#8, 0x0B#8, 0x21#8, 0x80#8, 0#8, 0#8, 0#8] =
      some (⟨0x00000B21#32, 0x80000000#32⟩, []) := ⟨rfl, rfl⟩

/-! ### Assembler (R79, R80) -/

/-- R80: TICK is two commands, and R79's comment. -/
theorem test_asm_tick :
    assembleLine "TICK ; one sample".toList = .ok [⟨0x00000001#32, 0#32⟩, ⟨0x00000011#32, 0#32⟩] := rfl

/-- R79: a decimal literal rounds to nearest: 0.1 is 0x3DCCCCCD (V-B8). -/
theorem test_asm_decimal :
    (assembleLine "OSC.FREQ 0.1".toList).toOption = some [⟨0x00000004#32, 0x3DCCCCCD#32⟩] := by decide +kernel

/-- R79: a raw pattern, a name, and an explicit ignored data word. -/
theorem test_asm_operands :
    assembleLine "SUB.CAR #0x80000000".toList = .ok [⟨0x00000014#32, 0x80000000#32⟩] ∧
    assembleLine "READ SUB_OCT".toList = .ok [⟨0x00000821#32, 0#32⟩] ∧
    assembleLine "NOP , #0xDEADBEEF".toList = .ok [⟨0x00000000#32, 0xDEADBEEF#32⟩] := ⟨rfl, rfl, rfl⟩

/-! ### The block: one step each -/

/-- V-C4: NOP from the state of a running block; the response port is emptied by the host, no response is made. -/
theorem test_nop : stepped (sent 0x00000000#32 0xDEADBEEF#32 freq440) = freq440 := by decide

/-- V-B1, samples 0 and 9: saw, old phase to new phase, the response, OSC_OUT. -/
theorem test_oscProc_saw :
    (after .oscProc (playing 2#2 0x00000000#32)).respPort = some 0x00000000#32 ∧
    (after .oscProc (playing 2#2 0x3F666668#32)).respPort = some 0x3F4CCCD0#32 ∧
    (after .oscProc (playing 2#2 0x3F666668#32)).oscOut = 0x3F4CCCD0#32 ∧
    (after .oscProc (playing 2#2 0x3F666668#32)).oscPhase = 0x34000000#32 := by decide

/-- V-B2, sample 10, and V-B3, sample 8: pulse and triangle just after the wrap. -/
theorem test_oscProc_pulse_triangle :
    (after .oscProc (playing 3#2 0x34000000#32)).respPort = some 0x36200000#32 ∧
    (after .oscProc (playing 1#2 0x3F4CCCCE#32)).respPort = some 0x3E4CCCE0#32 ∧
    (after .oscProc (playing 3#2 0x34000000#32)).status = 0x00000000#32 := by decide

/-- V-G1: an evaluator that gives a NaN: the response is 0.0, STATUS.NAN is set and the phase still advances. -/
theorem test_oscProc_guard :
    let t := oscProcess (fun _ => 0x7FC00000#32) (playing 0#2 0x00000000#32)
    t.respPort = some 0x00000000#32 ∧ t.status = 0x00000004#32 ∧ t.oscOut = 0x00000000#32 ∧
      t.oscPhase = 0x3DCCCCCD#32 := by decide

/-- V-B12. -/
theorem test_oscRst :
    after .oscRst { playing 2#2 0x3F333334#32 with oscOut := 0x3ECCCCD0#32 } = playing 2#2 0x00000000#32 := by decide

/-- V-B13. -/
theorem test_oscWave :
    (after (.oscWave 3#8) State.reset).oscWave = 3#2 ∧ (after (.oscWave 3#8) State.reset).status = 0x00000000#32 ∧
    (after (.oscWave 4#8) State.reset).oscWave = 3#2 ∧ (after (.oscWave 4#8) State.reset).status = 0x00000001#32 ∧
    (after (.oscWave 0xFF#8) State.reset).oscWave = 3#2 := by decide

/-- V-B14: sanitising. -/
theorem test_oscFreq_sanitises :
    (after (.oscFreq 0xBF800000#32) freq440).oscFreq = 0x00000000#32 ∧
    (after (.oscFreq 0xBF800000#32) freq440).status = 0x00000001#32 ∧
    (after (.oscFreq 0x7FC00000#32) State.reset).status = 0x00000001#32 ∧
    (after (.oscFreq 0x80000000#32) State.reset).oscFreq = 0x00000000#32 ∧
    (after (.oscFreq 0x80000000#32) State.reset).status = 0x00000000#32 := by decide

/-- V-B14: the increment, at 440.0, at SR/2 and above it. -/
theorem test_oscFreq_increment :
    (after (.oscFreq 0x43DC0000#32) State.reset).oscInc = 0x3C2377EE#32 ∧
    (after (.oscFreq 0x46AC4400#32) State.reset).oscInc = 0x3F000000#32 ∧
    (after (.oscFreq 0x46AC4400#32) State.reset).status = 0x00000000#32 ∧
    (after (.oscFreq 0x46EA6000#32) State.reset).oscInc = 0x3F000000#32 ∧
    (after (.oscFreq 0x46EA6000#32) State.reset).status = 0x00000001#32 := by decide

/-- P3, line 8, with the reference value of its phase: the sub-oscillator wraps 0.875 + 0.25 to 0.125. -/
theorem test_subProc :
    let t := subProcess (fun _ => 0xBF3504F3#32) { State.reset with subPhase := 0x3F600000#32, subInc := 0x3E800000#32 }
    t.respPort = some 0xBF3504F3#32 ∧ t.subOut = 0xBF3504F3#32 ∧ t.subPhase = 0x3E000000#32 ∧
      t.status = 0x00000000#32 := by decide

/-- V-G1 for SUB.PROC. -/
theorem test_subProc_guard :
    let t := subProcess (fun _ => 0x7FC00000#32) State.reset
    t.respPort = some 0x00000000#32 ∧ t.status = 0x00000004#32 ∧ t.subOut = 0x00000000#32 := by decide

/-- V-U6. -/
theorem test_subRst :
    after .subRst { State.reset with subPhase := 0x3E000000#32, subOut := 0xBF3504F3#32, subInc := 0x3E800000#32 } =
      { State.reset with subInc := 0x3E800000#32 } := by decide

/-- V-U4. -/
theorem test_subOct :
    (after (.subOct 0#8) carrier440).subOct = 1#2 ∧ (after (.subOct 0#8) carrier440).subInc = 0x3BA377EE#32 ∧
    (after (.subOct 0#8) carrier440).status = 0x00000001#32 ∧
    (after (.subOct 2#8) carrier440).subInc = 0x3B2377EE#32 ∧ (after (.subOct 2#8) carrier440).status = 0x00000000#32 ∧
    (after (.subOct 3#8) carrier440).subOct = 2#2 ∧ (after (.subOct 3#8) carrier440).status = 0x00000001#32 := by decide

/-- V-U5 and V-U3: the clamp is on the shifted frequency. -/
theorem test_subCar :
    (after (.subCar 0x472C4400#32) State.reset).subInc = 0x3F000000#32 ∧
    (after (.subCar 0x472C4400#32) State.reset).status = 0x00000000#32 ∧
    (after (.subCar 0x472C4400#32) { State.reset with subOct := 2#2 }).subInc = 0x3E800000#32 ∧
    (after (.subCar 0x47C35000#32) { State.reset with subOct := 2#2 }).status = 0x00000001#32 ∧
    (after (.subCar 0x7FC00000#32) State.reset).subCarrier = 0x00000000#32 := by decide

/-- V-C1: ignored values. -/
theorem test_setsr_ignored :
    after (.setsr 0x3F000000#32) freq440 = { freq440 with status := 0x00000001#32 } ∧
    after (.setsr 0x7F800000#32) freq440 = { freq440 with status := 0x00000001#32 } ∧
    after (.setsr 0xC72C4400#32) freq440 = { freq440 with status := 0x00000001#32 } := by decide

/-- V-C1: stored values. -/
theorem test_setsr_stored :
    (after (.setsr 0x3F800000#32) freq440).oscInc = 0x3F000000#32 ∧
    (after (.setsr 0x3F800000#32) freq440).status = 0x00000001#32 ∧
    (after (.setsr 0x473B8000#32) freq440).oscInc = 0x3C162FC9#32 ∧
    (after (.setsr 0x473B8000#32) freq440).sr = 0x473B8000#32 := by decide

/-- V-C2. -/
theorem test_read :
    (after (.read 8#8) State.reset).respPort = some 0x00000001#32 ∧
    (after (.read 10#8) State.reset).respPort = some 0x472C4400#32 ∧
    (after (.read 11#8) State.reset).status = 0x00000000#32 ∧
    (after (.read 12#8) State.reset).respPort = some 0x00000000#32 ∧
    (after (.read 12#8) State.reset).status = 0x00000002#32 := by decide

/-- R20: each index names its own register. -/
theorem test_read_indices :
    (List.range 12).map (fun k => (after (.read (BitVec.ofNat 8 k))
      { oscPhase := 100#32, oscInc := 101#32, oscFreq := 102#32, oscWave := 3#2, oscOut := 104#32, subPhase := 105#32,
        subInc := 106#32, subCarrier := 107#32, subOct := 2#2, subOut := 109#32, sr := 110#32, status := 7#32,
        respPort := none, cmdPort := [], respTaken := [] }).respPort) =
      [some 100#32, some 101#32, some 102#32, some 3#32, some 104#32, some 105#32, some 106#32, some 107#32, some 2#32,
        some 109#32, some 110#32, some 7#32] := by decide

/-- V-C3: CLRST, and its illegal form. -/
theorem test_clrst :
    (stepped (sent 0x00000022#32 0#32 { State.reset with status := 7#32 })).status = 0#32 ∧
    (stepped (sent 0x00000122#32 0#32 { State.reset with status := 1#32 })).status = 3#32 := by decide

/-- V-D1, P4 line 0: an illegal pair. -/
theorem test_illegal_pair :
    stepped (sent 0x00000105#32 0xFFFFFFFF#32 freq440) = { freq440 with status := 0x00000002#32 } := by decide

/-- R53: the host takes the response before its next command; R211: an idle block keeps its registers. -/
theorem test_response_order :
    (stepped { sent 0x00000A21#32 0#32 State.reset with respPort := some 5#32, respTaken := [4#32] }).responses =
      [4#32, 5#32, 0x472C4400#32] ∧
    stepped { freq440 with respPort := some 5#32 } = { freq440 with respTaken := [5#32] } := by decide

/-- R230, R232: power-on reset on a running block. -/
theorem test_power_on :
    stepped { freq440 with status := 7#32, cmdPort := [.powerOnReset] } = State.reset := by decide

/-- withFetchWord: the very next step runs the command (V-B13). -/
theorem test_withFetchWord : (stepped (State.reset.withFetchWord 32 0x00000203)).oscWave = 2#2 := by decide

/-! ### The waveform functions -/

/-- V-B8, dt = 0.1 and dt = 0.5: strict windows and the order of evaluation. -/
theorem test_blep :
    blep 0x3D4CCCCD#32 0x3DCCCCCD#32 = 0xBE800000#32 ∧ blep 0x3DCCCCCD#32 0x3DCCCCCD#32 = 0x00000000#32 ∧
    blep 0x3F666666#32 0x3DCCCCCD#32 = 0x00000000#32 ∧ blep 0x3F733333#32 0x3DCCCCCD#32 = 0x3E7FFFF8#32 ∧
    blep 0x3F400000#32 0x3F000000#32 = 0x3E800000#32 ∧ blep 0x00000000#32 0x00000000#32 = 0x00000000#32 := by decide

/-- V-B9: both edges of the pulse. -/
theorem test_pulse :
    pulse 0x3EE66666#32 0x3DCCCCCD#32 = 0x3F400002#32 ∧ pulse 0x3F0CCCCD#32 0x3DCCCCCD#32 = 0xBF3FFFF8#32 ∧
    frac05 0x3F0CCCCD#32 = 0x3D4CCCC0#32 ∧ pulse 0x3F733333#32 0x3DCCCCCD#32 = 0xBF400002#32 := by decide

/-- V-B9, V-B11: saw and triangle. -/
theorem test_saw_tri :
    saw 0x3F733333#32 0x3DCCCCCD#32 = 0x3F266668#32 ∧ saw 0x3EE66666#32 0x3DCCCCCD#32 = 0xBDCCCCD0#32 ∧
    tri 0x3F7FFFFF#32 = 0x3F7FFFFC#32 ∧ tri 0x3F000000#32 = 0xBF800000#32 := by decide

/-- V-B10: the sum rounds to exactly 1.0 and wraps to 0.0. -/
theorem test_wrap_to_zero :
    advancePhase 0x3F7FFFFF#32 0x33000000#32 = 0x00000000#32 ∧
      advancePhase 0x3F7FFFFF#32 0x33800000#32 = 0x00000000#32 := by decide

/-- P5, line 5: the sum is rounded before the wrap. -/
theorem test_wrap_after_rounding : advancePhase 0x3F683315#32 0x3F000000#32 = 0x3ED06628#32 := by decide

/-- E2, the plain geometry of the estimator: one sign change a sample, at the middle between them, so SR/2. -/
theorem test_estimatedHertz : estimatedHertz 44100 [1, -1, 1, -1] = some 22050 := by decide +kernel

/-! ### Witnesses: for each obligation with hypotheses, states and operands that meet them, at the ends of their ranges -/

theorem witness_OpcodeMapRows :
    (0x0000FF03#32 &&& 0xFFFF00FF#32 = 0x00000003#32) ∧ 0x00000022#32 &&& 0xFFFFFFFF#32 = 0x00000022#32 ∧
    0x0000FF13#32 &&& 0xFFFF00FF#32 = 0x00000013#32 ∧ 0x0000FF21#32 &&& 0xFFFF00FF#32 = 0x00000021#32 ∧
    (∀ r ∈ opcodeTable, r.selects 0x00000005#32 = false) ∧ (∀ r ∈ opcodeTable, r.selects 0x00010000#32 = false) ∧
    ∃ r ∈ opcodeTable, r.selects 0x0000FF03#32 = true := by decide

theorem witness_ReservedOpcodesSetIll :
    ([0x05, 0x10, 0x15, 0x1F, 0x23, 0xFF].all fun op =>
      decide ((0x05 ≤ op % 256 ∧ op % 256 ≤ 0x10) ∨ (0x15 ≤ op % 256 ∧ op % 256 ≤ 0x1F) ∨ 0x23 ≤ op % 256) &&
      decide ((sent (BitVec.ofNat 32 op) 0#32 State.reset).cmdPort =
        .command ⟨BitVec.ofNat 32 op, 0#32⟩ :: [])) = true := by decide

theorem witness_IllegalPairSetsOnlyIll :
    legalWord 0x00000005#32 = false ∧ legalWord 0x00010001#32 = false ∧ legalWord 0x00000104#32 = false ∧
      (sent 0x00000005#32 0#32 State.reset).cmdPort = .command ⟨0x00000005#32, 0#32⟩ :: [] := by decide

theorem witness_NopResult :
    (0x00000100#32).toNat % 256 = 0 ∧ 0x00000100#32 ≠ 0x00000000#32 ∧ (0x80000000#32).toNat % 256 = 0 := by decide

theorem witness_OscProcCornerCases :
    (legalPhase State.reset.oscPhase = true ∧ State.reset.oscInc = f0 ∧ legalPhase 0x3F7FFFFF#32 = true) ∧
    (∃ s : State, s = { State.reset with oscWave := 2#2, oscInc := fHalf } ∧ s.oscPhase = f0 ∧ s.oscInc = fHalf) ∧
    (∃ s : State, s = { State.reset with oscWave := 3#2, oscPhase := fHalf, oscInc := fHalf } ∧
      s.oscPhase = fHalf ∧ s.oscInc = fHalf) ∧
    fadd 0x3F7FFFFF#32 0x33000000#32 = f1 ∧
    ∃ sin : F32 → F32, Sin2PiRef sin ∧ ({ State.reset with oscPhase := fHalf } : State).oscWave = 0#2 :=
  ⟨by decide, ⟨_, rfl, rfl, rfl⟩, ⟨_, rfl, rfl, rfl⟩, by decide, exists_sin2PiRef.imp fun _ h => ⟨h, rfl⟩⟩

theorem witness_OscRstResult :
    exec .oscRst State.reset = .next State.reset ∧
    (playing 2#2 0x3F000000#32).oscWave = 2#2 ∧ legalIncrement (playing 2#2 0x3F000000#32).oscInc = true ∧
    flt f0 (playing 2#2 0x3F000000#32).oscInc = true ∧
    (legalIncrement 0x00000001#32 = true ∧ flt f0 0x00000001#32 = true) ∧
    (legalIncrement fHalf = true ∧ flt f0 fHalf = true) := ⟨rfl, by decide⟩

theorem witness_OscWaveResult : (3#8).toNat ≤ 3 ∧ 3 < (4#8).toNat ∧ 3 < (0xFF#8).toNat := by decide

theorem reset_derived : State.reset.incrementsDerived := ⟨by decide, by decide⟩

theorem witness_OscFreqResult :
    (State.reset.legal = true ∧ State.reset.incrementsDerived) ∧
    (legalRate State.reset.sr = true ∧ finite 0x46AC4401#32 = true ∧
      fgt 0x46AC4401#32 (fmul 0x3F000000#32 State.reset.sr) = true) ∧
    (legalRate f1 = true ∧ fgt 0x3F000001#32 (fmul 0x3F000000#32 f1) = true) ∧
    State.reset.sr = 0x472C4400#32 := ⟨⟨by decide, reset_derived⟩, by decide⟩

theorem witness_SubProcReferenceExample : ∃ (sin : F32 → F32) (s : State),
    Sin2PiRef sin ∧ s.subPhase = 0x00000000#32 ∧ s.subInc = 0x3E000000#32 :=
  exists_sin2PiRef.imp fun _ h => ⟨{ State.reset with subInc := 0x3E000000#32 }, h, rfl, rfl⟩

theorem witness_SubRstResult : ∃ (sin : F32 → F32) (s : State), Sin2PiRef sin ∧ s.subPhase = 0x3F600000#32 :=
  exists_sin2PiRef.imp fun _ h => ⟨{ State.reset with subPhase := 0x3F600000#32 }, h, rfl⟩

theorem witness_SubOctResult :
    (1#8 = 1#8 ∨ 1#8 = 2#8) ∧ 2 < (3#8).toNat ∧ 2 < (0xFF#8).toNat ∧
      ({ State.reset with subCarrier := 0x435C0000#32 } : State).sr = 0x472C4400#32 := by decide

theorem witness_SubCarResult :
    (State.reset.legal = true ∧ State.reset.incrementsDerived) ∧ State.reset.sr = 0x472C4400#32 ∧
      State.reset.subOct = 1#2 := ⟨⟨by decide, reset_derived⟩, by decide⟩

theorem witness_SetsrResult :
    finite 0x7F800000#32 = false ∧ flt 0x3F7FFFFF#32 0x3F800000#32 = true ∧
    (finite 0x3F800000#32 = true ∧ flt 0x3F800000#32 0x3F800000#32 = false) ∧
    (finite 0x7F7FFFFF#32 = true ∧ flt 0x7F7FFFFF#32 0x3F800000#32 = false) ∧
    fgt freq440.oscFreq (fmul 0x3F000000#32 0x3F800000#32) = true ∧ freq440.oscFreq = 0x43DC0000#32 := by decide

theorem witness_ReadResult :
    ((fun s : State => [s.oscPhase, s.oscInc, s.oscFreq, s.oscWave.setWidth 32, s.oscOut, s.subPhase, s.subInc, s.subCarrier,
      s.subOct.setWidth 32, s.subOut, s.sr, s.status]) State.reset)[11]? = some 0x00000000#32 ∧
    12 ≤ (12#8).toNat ∧ 12 ≤ (0xFF#8).toNat ∧ State.reset.legal = true ∧
    State.reset.status = 0x00000000#32 := by decide

theorem witness_ClrstResult :
    (0x00000122#32).toNat % 256 = 0x22 ∧ 0x00000122#32 ≠ 0x00000022#32 ∧
      (sent 0x00000122#32 0#32 State.reset).cmdPort = .command ⟨0x00000122#32, 0#32⟩ :: [] := by decide

theorem witness_RecomputeBothIncrements :
    finite 0x3F800000#32 = true ∧ flt 0x3F800000#32 0x3F800000#32 = false := by decide

theorem witness_ReferenceSineAtQuarters : ∃ sin : F32 → F32, Sin2PiRef sin := exists_sin2PiRef

theorem witness_NaiveWaveformsStayInRange :
    legalPhase 0x00000000#32 = true ∧ legalPhase 0x3F7FFFFF#32 = true ∧
    (legalPhase fQuarter = true ∧ ratOf fQuarter < 1 / 2) ∧ legalPhase fHalf = true ∧ 1 / 2 ≤ ratOf fHalf :=
  ⟨by decide, by decide, ⟨by decide, by rw [ratOf_fQuarter]; norm_num⟩, by decide, by rw [ratOf_fHalf]⟩

theorem witness_BlepResidual :
    (legalIncrement 0x00000001#32 = true ∧ flt f0 0x00000001#32 = true) ∧
    (legalPhase 0x3F7FFFFF#32 = true ∧ legalIncrement fHalf = true) ∧
    (flt 0x3F000000#32 0x3DCCCCCD#32 = false ∧ fgt 0x3F000000#32 (fsub f1 0x3DCCCCCD#32) = false) ∧
    flt 0x00000000#32 0x3DCCCCCD#32 = true ∧ fgt 0x3F733333#32 (fsub f1 0x3DCCCCCD#32) = true := by decide

theorem witness_HalfPeriodShift :
    legalPhase 0x00000000#32 = true ∧ legalPhase 0x3F7FFFFF#32 = true ∧ finite f1 = true ∧ 1 ≤ ratOf f1 ∧
      ratOf f1 ≤ 3 / 2 := ⟨by decide, by decide, by decide, by rw [ratOf_f1], by rw [ratOf_f1]; norm_num⟩

theorem witness_GuardNeverFires :
    finite (wave (fun _ => 0x7F800000#32) State.reset.oscWave State.reset.oscPhase State.reset.oscInc) = false ∧
    (∃ sin : F32 → F32, Sin2PiRef sin ∧ legalPhase 0x3F7FFFFF#32 = true) ∧
    (∀ t, legalPhase t = true → finite (zeroSine t) = true) ∧ State.reset.legal = true :=
  ⟨by decide, exists_sin2PiRef.imp fun _ h => ⟨h, by decide⟩, fun _ _ => rfl, by decide⟩

theorem witness_PhaseWrapIsExact :
    legalPhase 0x3F7FFFFF#32 = true ∧ legalIncrement fHalf = true ∧ fge (fadd 0x3F7FFFFF#32 fHalf) f1 = true ∧
      legalIncrement f0 = true := by decide

theorem witness_SawDiffersNearTheWrap :
    (legalPhase 0x3D4CCCCD#32 = true ∧ legalIncrement 0x3DCCCCCD#32 = true ∧ flt 0x3D4CCCCD#32 0x3DCCCCCD#32 = true ∧
      fdiv 0x3D4CCCCD#32 0x3DCCCCCD#32 = fHalf ∧ fle fHalf fHalf = true) ∧
    (legalPhase 0x3DCCCCCD#32 = true ∧ flt 0x3DCCCCCD#32 0x3DCCCCCD#32 = false ∧
      fgt 0x3DCCCCCD#32 (fsub f1 0x3DCCCCCD#32) = false) := by decide

theorem witness_IncrementIsNearestQuotient :
    legalHertz 0x00000000#32 = true ∧ legalHertz 0x7F7FFFFF#32 = true ∧ legalRate f1 = true ∧
      legalRate 0x7F7FFFFF#32 = true := by decide

theorem witness_IncrementBounds :
    legalHertz 0x7F7FFFFF#32 = true ∧ legalRate f1 = true ∧ legalHertz 0x00000001#32 = true ∧
      legalRate 0x472C4400#32 = true ∧ legalHertz f0 = true ∧ legalHertz f1 = true ∧ ratOf f0 ≤ ratOf f1 :=
  ⟨by decide, by decide, by decide, by decide, by decide, by decide, by rw [ratOf_f0, ratOf_f1]; norm_num⟩

theorem witness_SubFrequencyIsOctavesBelow :
    legalHertz f1 = true ∧ legalOct 1#2 = true ∧ legalOct 2#2 = true ∧ 1 / 2 ^ 124 ≤ ratOf f1 :=
  ⟨by decide, by decide, by decide, by rw [ratOf_f1]; norm_num⟩

theorem ratOf_max : ratOf 0x7F7FFFFF#32 = 2 ^ 128 - 2 ^ 104 := by
  rw [ratOf, show exactUnits 0x7F7FFFFF#32 = (2 ^ 24 - 1) * 2 ^ 253 by decide]; norm_num

/-- Operands on each side of the overflow threshold, for each operation. -/
theorem witness_ArithmeticIsCorrectlyRounded :
    (finite f1 = true ∧ |ratOf f1 + ratOf f1| < 2 ^ 128 - 2 ^ 103 ∧ |ratOf f1 - ratOf f1| < 2 ^ 128 - 2 ^ 103 ∧
      |ratOf f1 * ratOf f1| < 2 ^ 128 - 2 ^ 103 ∧ ratOf f1 ≠ 0 ∧ |ratOf f1 / ratOf f1| < 2 ^ 128 - 2 ^ 103) ∧
    (finite 0x7F7FFFFF#32 = true ∧ finite (fneg 0x7F7FFFFF#32) = true ∧
      2 ^ 128 - 2 ^ 103 ≤ |ratOf 0x7F7FFFFF#32 + ratOf 0x7F7FFFFF#32| ∧
      2 ^ 128 - 2 ^ 103 ≤ |ratOf 0x7F7FFFFF#32 - ratOf (fneg 0x7F7FFFFF#32)| ∧
      2 ^ 128 - 2 ^ 103 ≤ |ratOf 0x7F7FFFFF#32 * ratOf f2| ∧ ratOf fHalf ≠ 0 ∧
      2 ^ 128 - 2 ^ 103 ≤ |ratOf 0x7F7FFFFF#32 / ratOf fHalf|) := by
  refine ⟨⟨by decide, ?_⟩, by decide, by decide, ?_⟩
  · rw [ratOf_f1]; norm_num
  · rw [ratOf_fneg, ratOf_max, ratOf_f2, ratOf_fHalf]
    norm_num

theorem witness_ComparisonsAreOrdered :
    isNaN 0x7FC00000#32 = true ∧ isNaN 0xFF800001#32 = true ∧ finite 0xFF7FFFFF#32 = true ∧
      finite 0x7F7FFFFF#32 = true := by decide

theorem witness_StepRunsTheDecodedCommand :
    (sent 0x0000FF03#32 0#32 State.reset).cmdPort = .command ⟨0x0000FF03#32, 0#32⟩ :: [] ∧
      decode ⟨0x0000FF03#32, 0#32⟩ = .ok (.oscWave 0xFF#8) := ⟨rfl, rfl⟩

theorem witness_StepKeepsLegalRegisters :
    (sent 0x00000203#32 0#32 freq440).legal = true ∧
      step (sent 0x00000203#32 0#32 freq440) = .next { freq440 with oscWave := 2#2 } := ⟨by decide, rfl⟩

theorem witness_StepKeepsIncrementsDerived :
    (sent 0x00000203#32 0#32 freq440).legal = true ∧ (sent 0x00000203#32 0#32 freq440).incrementsDerived ∧
      step (sent 0x00000203#32 0#32 freq440) = .next { freq440 with oscWave := 2#2 } :=
  ⟨by decide, ⟨by decide, by decide⟩, rfl⟩

theorem witness_RegistersChangeOnlyByTheirWriters :
    State.reset.legal = true ∧ State.reset.incrementsDerived ∧
      exec (.oscWave 2#8) State.reset = .next { State.reset with oscWave := 2#2 } ∧
      ({ State.reset with oscWave := 2#2 } : State).oscWave ≠ State.reset.oscWave :=
  ⟨by decide, reset_derived, rfl, by decide⟩

theorem witness_ConfigurationNeverMovesPhases :
    (∃ imm, Instr.oscWave 3#8 = .oscWave imm) ∧ (∃ x, Instr.setsr f1 = .setsr x) := ⟨⟨_, rfl⟩, ⟨_, rfl⟩⟩

theorem witness_StatusIsStickyAndWithoutEffect :
    step (sent 0x00000203#32 0#32 { State.reset with status := 7#32 }) =
      .next { State.reset with status := 7#32, oscWave := 2#2 } ∧
    (∀ c rest, (sent 0x00000203#32 0#32 State.reset).cmdPort = .command c :: rest → decode c ≠ .ok .clrst) ∧
    (∀ rest, (sent 0x00000203#32 0#32 State.reset).cmdPort ≠ .powerOnReset :: rest) := by
  refine ⟨rfl, fun c rest h => ?_, fun rest h => by cases h⟩
  cases h
  rw [show decode ⟨0x00000203#32, 0#32⟩ = .ok (.oscWave 2#8) from rfl]
  intro h'; cases h'

theorem witness_ConditionsSetTheirBits :
    Instr.oscWave 4#8 ≠ .clrst ∧
      exec (.oscWave 4#8) State.reset = .next { State.reset with oscWave := 3#2, status := 1#32 } := ⟨by decide, rfl⟩

theorem witness_ResponsesLeaveInOrder :
    (sent 0x00000A21#32 0#32 State.reset).cmdPort = .command ⟨0x00000A21#32, 0#32⟩ :: [] ∧
    step (sent 0x00000A21#32 0#32 State.reset) = .next { State.reset with respPort := some 0x472C4400#32 } ∧
    Sys2Proof.core.run 1 (sent 0x00000A21#32 0#32 State.reset) =
      .next { State.reset with respPort := some 0x472C4400#32 } := ⟨rfl, rfl, rfl⟩

theorem witness_LaterInputsHaveNoEffect :
    step { State.reset with cmdPort := .command ⟨0x00000203#32, 0#32⟩ :: [.powerOnReset] } =
      .next { State.reset with oscWave := 2#2, cmdPort := [.powerOnReset] } := rfl

theorem witness_SetCommandsAreIdempotent :
    (∃ imm, Instr.oscWave 4#8 = .oscWave imm) ∧
    exec (.oscWave 4#8) State.reset = .next { State.reset with oscWave := 3#2, status := 1#32 } ∧
    exec (.read 12#8) State.reset = .next { State.reset with respPort := some 0#32, status := 2#32 } :=
  ⟨⟨_, rfl⟩, rfl, rfl⟩

theorem witness_ConfigurationOrderDoesNotMatter : ∃ t u t' u' : State,
    exec (.oscWave 3#8) State.reset = .next t ∧ exec (.setsr 0x473B8000#32) t = .next u ∧
    exec (.setsr 0x473B8000#32) State.reset = .next t' ∧ exec (.oscWave 3#8) t' = .next u' ∧
    Instr.oscWave 3#8 ≠ .setsr 0x473B8000#32 := ⟨_, _, _, _, rfl, rfl, rfl, rfl, by decide⟩

theorem witness_OutputsAreNeverFedBack :
    exec (.read 10#8) State.reset = .next { State.reset with respPort := some 0x472C4400#32 } ∧
      Instr.read 10#8 ≠ .read 4#8 ∧ Instr.read 10#8 ≠ .read 9#8 := ⟨rfl, by decide, by decide⟩

theorem witness_UnitsAreIndependent :
    (∃ t, exec .subProc State.reset = .next t) ∧ ∃ t, exec .oscProc State.reset = .next t := ⟨⟨_, rfl⟩, ⟨_, rfl⟩⟩

theorem witness_PowerOnResetValues :
    ({ freq440 with cmdPort := [.powerOnReset] } : State).cmdPort = .powerOnReset :: [] := rfl

theorem witness_ConstantUntilConfigured :
    State.reset.oscPhase = f0 ∧ State.reset.oscInc = f0 ∧
    ({ State.reset with oscWave := 1#2 } : State).oscWave = 1#2 ∧
    (∃ sin : F32 → F32, Sin2PiRef sin ∧ State.reset.oscWave = 0#2) :=
  ⟨rfl, rfl, rfl, exists_sin2PiRef.imp fun _ h => ⟨h, rfl⟩⟩

end Sys2Proof.Tests
end

section
/-! PROOFS. The ordered comparisons of finite values, infinities and NaNs (spec/00_scope.md R9). -/

namespace Sys2Proof.Machine

theorem not_ordered_of_isNaN {a b : F32} (h : isNaN a = true ∨ isNaN b = true) :
    flt a b = false ∧ fle a b = false ∧ feq a b = false := by
  rcases h with h | h <;> simp [flt, fle, feq, h]

/-- A finite pattern's place in the order lies strictly between the two infinities' places. -/
theorem orderKey_bounds_of_finite {a : F32} (ha : finite a = true) :
    -(infMag : Int) < orderKey a ∧ orderKey a < infMag := by
  rw [finite_iff] at ha
  unfold orderKey
  split <;> omega

theorem flt_posInf_of_finite {a : F32} (ha : finite a = true) : flt a 0x7F800000#32 = true := by
  have hkey : orderKey 0x7F800000#32 = infMag := by decide
  have hnan : isNaN 0x7F800000#32 = false := by decide
  simp [flt, not_isNaN_of_finite ha, hnan, hkey, (orderKey_bounds_of_finite ha).2]

theorem negInf_flt_of_finite {a : F32} (ha : finite a = true) : flt 0xFF800000#32 a = true := by
  have hkey : orderKey 0xFF800000#32 = -(infMag : Int) := by decide
  have hnan : isNaN 0xFF800000#32 = false := by decide
  simp [flt, not_isNaN_of_finite ha, hnan, hkey, (orderKey_bounds_of_finite ha).1]

/-- Settles O36: `fgt` and `fge` are `flt` and `fle` with the operands exchanged, and `orderKey` orders the patterns as
their values. -/
theorem comparisonsAreOrdered : Obligations.ComparisonsAreOrdered := by
  unfold Obligations.ComparisonsAreOrdered
  refine ⟨fun a b h => ?_, fun a b ha hb => ?_, fun a ha => ?_, by decide⟩
  · obtain ⟨hlt, hle, heq⟩ := not_ordered_of_isNaN h
    obtain ⟨hgt, hge, -⟩ := not_ordered_of_isNaN h.symm
    exact ⟨hlt, hle, hgt, hge, heq⟩
  · exact ⟨flt_iff ha hb, fle_iff ha hb, flt_iff hb ha, fle_iff hb ha, feq_iff ha hb⟩
  · exact ⟨flt_posInf_of_finite ha, negInf_flt_of_finite ha⟩

end Sys2Proof.Machine
end

section
/-! PROOFS. Rounding is to nearest, ties to even (spec/00_scope.md R9). `roundDiv` is off by at most half a unit; so the
pattern it gives is, among all magnitude patterns with no largest exponent, the nearest. The overflow threshold then is
the midpoint between the two patterns `infMag - 1` and `infMag`. -/

namespace Sys2Proof.Machine

/-! ### Magnitudes -/

/-- Rounding to a whole number is off by at most half a unit, and by half a unit only where the result is even. -/
theorem roundDiv_half {n d : Nat} (hd : 0 < d) :
    2 * |(roundDiv n d * d - n : Int)| ≤ d ∧
      (2 * |(roundDiv n d * d - n : Int)| = d → roundDiv n d % 2 = 0) := by
  have hmod : (n / d * d + n % d : Int) = n := by exact_mod_cast Nat.div_add_mod' n d
  have hlt : n % d < d := Nat.mod_lt n hd
  unfold roundDiv
  split
  · have hdist : ((n / d + 1 : Nat) * d - n : Int) = (d : Int) - (n % d : Nat) := by push_cast; linarith
    rw [hdist, abs_of_nonneg (by omega)]
    omega
  · have hdist : ((n / d : Nat) * d - n : Int) = -((n % d : Nat) : Int) := by push_cast; linarith
    rw [hdist, abs_neg, abs_of_nonneg (by omega)]
    omega

/-- `roundMag` before a magnitude past the largest finite one becomes the infinity. -/
def roundPattern (n d : Nat) : Nat := roundShift n d * 2 ^ 23 + roundDiv n (d * 2 ^ roundShift n d)

theorem roundMag_eq_min (n d : Nat) : roundMag n d = min infMag (roundPattern n d) := rfl

theorem unitsOf_roundPattern {n d : Nat} (hd : 0 < d) :
    unitsOf (roundPattern n d) = roundDiv n (d * 2 ^ roundShift n d) * 2 ^ roundShift n d :=
  unitsOf_scaled (roundDiv_significand hd).1 (roundDiv_significand hd).2

/-- The rounded magnitude is off by at most half of `2 ^ roundShift` units, and by half only where its pattern is
even. -/
theorem roundPattern_half {n d : Nat} (hd : 0 < d) :
    2 * |(unitsOf (roundPattern n d) * d - n : Int)| ≤ d * 2 ^ roundShift n d ∧
      (2 * |(unitsOf (roundPattern n d) * d - n : Int)| = d * 2 ^ roundShift n d → roundPattern n d % 2 = 0) := by
  have hhalf := roundDiv_half (n := n) (Nat.mul_pos hd (Nat.two_pow_pos (roundShift n d)))
  rw [unitsOf_roundPattern hd, roundPattern]
  push_cast at hhalf ⊢
  rw [mul_right_comm, mul_assoc]
  exact ⟨hhalf.1, fun h => by have := hhalf.2 h; omega⟩

theorem unitsOf_succ_scaled {s k : Nat} (hk : k ≤ 2 ^ 24) (hs : s = 0 ∨ 2 ^ 23 ≤ k) :
    k * 2 ^ s + 2 ^ s ≤ unitsOf (s * 2 ^ 23 + k + 1) := by
  rcases hk.lt_or_eq with hlt | rfl
  · rw [add_assoc, unitsOf_scaled (by omega) (by omega), Nat.add_one_mul]
  · rw [show s * 2 ^ 23 + 2 ^ 24 + 1 = (s + 1) * 2 ^ 23 + (2 ^ 23 + 1) by ring,
      unitsOf_scaled (by norm_num) (.inr (by norm_num)), pow_succ]
    omega

/-- Every larger pattern is at least `2 ^ roundShift` units above the rounded one. -/
theorem unitsOf_ge_of_roundPattern_lt {n d m : Nat} (hd : 0 < d) (h : roundPattern n d < m) :
    unitsOf (roundPattern n d) + 2 ^ roundShift n d ≤ unitsOf m := by
  obtain ⟨hk, hs⟩ := roundDiv_significand (n := n) hd
  rw [unitsOf_roundPattern hd]
  exact (unitsOf_succ_scaled hk hs).trans (unitsOf_le_iff.2 h)

/-- Every smaller pattern is at least `2 ^ roundShift` units below the rounded one, unless that one starts a binade: it
is then not above the exact magnitude. -/
theorem unitsOf_le_of_lt_roundPattern {n d m : Nat} (hd : 0 < d) (h : m < roundPattern n d) :
    unitsOf m + 2 ^ roundShift n d ≤ unitsOf (roundPattern n d) ∨ unitsOf (roundPattern n d) * d ≤ n := by
  obtain ⟨hk, hs⟩ := roundDiv_significand (n := n) hd
  have hshift := le_roundShift (n := n) (d := d)
  rw [unitsOf_roundPattern hd]
  unfold roundPattern at h
  generalize roundDiv n (d * 2 ^ roundShift n d) = k at *
  generalize roundShift n d = s at *
  by_cases hstart : s ≠ 0 ∧ k = 2 ^ 23
  · obtain ⟨hs0, rfl⟩ := hstart
    right
    rw [← pow_add, Nat.add_comm 23 s]
    exact (Nat.le_div_iff_mul_le hd).1 (hshift hs0)
  · left
    obtain ⟨j, rfl⟩ : ∃ j, k = j + 1 := ⟨k - 1, by omega⟩
    have hj : unitsOf (s * 2 ^ 23 + j) = j * 2 ^ s := unitsOf_scaled (by omega) (by omega)
    have hm : unitsOf m ≤ unitsOf (s * 2 ^ 23 + j) := unitsOf_le_iff.2 (by omega)
    rw [Nat.add_one_mul, ← hj]
    omega

/-- An error of at most half a gap is no larger than the error one gap further on. -/
theorem abs_le_abs_of_gap {x y g : Int} (hx : 2 * |x| ≤ g) (hy : x + g ≤ y) :
    |x| ≤ |y| ∧ (|x| = |y| → 2 * |x| = g) := by
  rcases abs_cases x with ⟨hax, _⟩ | ⟨hax, _⟩ <;> rcases abs_cases y with ⟨hay, _⟩ | ⟨hay, _⟩ <;> omega

/-- No magnitude pattern is nearer to `n / d` units than the rounded one, and one equally near only where that is
even. -/
theorem roundPattern_nearest {n d : Nat} (hd : 0 < d) (m : Nat) :
    |(unitsOf (roundPattern n d) * d - n : Int)| ≤ |(unitsOf m * d - n : Int)| ∧
      (|(unitsOf (roundPattern n d) * d - n : Int)| = |(unitsOf m * d - n : Int)| →
        m = roundPattern n d ∨ roundPattern n d % 2 = 0) := by
  obtain ⟨hhalf, heven⟩ := roundPattern_half (n := n) hd
  -- a pattern below, the pattern itself, a pattern above
  rcases lt_trichotomy m (roundPattern n d) with hlt | rfl | hgt
  · have hm : (unitsOf m * d : Int) < unitsOf (roundPattern n d) * d := by
      exact_mod_cast Nat.mul_lt_mul_of_pos_right (unitsOf_lt_iff.2 hlt) hd
    rcases unitsOf_le_of_lt_roundPattern hd hlt with hgap | hle
    · have hgap' : ((unitsOf m + 2 ^ roundShift n d : Int)) * d ≤ unitsOf (roundPattern n d) * d := by
        exact_mod_cast Nat.mul_le_mul_right d hgap
      rw [← abs_neg] at hhalf heven ⊢
      rw [← abs_neg (unitsOf m * d - n : Int)]
      obtain ⟨hle, heq⟩ := abs_le_abs_of_gap (y := -(unitsOf m * d - n : Int)) hhalf (by linarith)
      exact ⟨hle, fun h => .inr (heven (heq h))⟩
    · have hle' : (unitsOf (roundPattern n d) * d : Int) ≤ n := by exact_mod_cast hle
      rw [abs_of_nonpos (by omega), abs_of_nonpos (by omega)]
      omega
  · exact ⟨le_rfl, fun _ => .inl rfl⟩
  · have hgap : ((unitsOf (roundPattern n d) + 2 ^ roundShift n d : Int)) * d ≤ unitsOf m * d := by
      exact_mod_cast Nat.mul_le_mul_right d (unitsOf_ge_of_roundPattern_lt hd hgt)
    obtain ⟨hle, heq⟩ := abs_le_abs_of_gap (y := (unitsOf m * d - n : Int)) hhalf (by linarith)
    exact ⟨hle, fun h => .inr (heven (heq h))⟩

theorem unitsOf_infMag : unitsOf infMag = 2 ^ 25 * 2 ^ 252 := by decide

theorem unitsOf_pred_infMag : unitsOf (infMag - 1) = (2 ^ 25 - 2) * 2 ^ 252 := by decide

/-- The midpoint, in units, between the largest finite magnitude and the next binade: 2^128 - 2^103. -/
def overflowUnits : Nat := (2 ^ 25 - 1) * 2 ^ 252

/-- A magnitude rounds to the infinity exactly from the overflow threshold on. -/
theorem infMag_le_roundPattern_iff {n d : Nat} (hd : 0 < d) :
    infMag ≤ roundPattern n d ↔ overflowUnits * d ≤ n := by
  constructor
  · intro hinf
    by_contra hlt
    have hu := Nat.mul_le_mul_right d (unitsOf_le_iff.2 hinf)
    have hnear := (roundPattern_nearest (n := n) hd (infMag - 1)).1
    have hpos : 0 < 2 ^ 252 * d := Nat.mul_pos (Nat.two_pow_pos _) hd
    rw [overflowUnits, Nat.not_le, mul_assoc] at hlt
    rw [unitsOf_infMag, mul_assoc] at hu
    rw [unitsOf_pred_infMag, Nat.cast_mul, mul_assoc, ← Nat.cast_mul, ← Nat.cast_mul] at hnear
    generalize 2 ^ 252 * d = e at *
    generalize unitsOf (roundPattern n d) * d = u at *
    rw [abs_of_nonneg (by omega)] at hnear
    rcases abs_cases (((2 ^ 25 - 2 : Nat) : Int) * e - n) with ⟨h, _⟩ | ⟨h, _⟩ <;> omega
  · intro hle
    have hmono := roundMag_mono (n₁ := overflowUnits) (n₂ := n) one_pos hd (by rwa [Nat.mul_one])
    rw [show roundMag overflowUnits 1 = infMag by decide] at hmono
    rw [roundMag_eq_min] at hmono
    exact hmono.trans (min_le_right _ _)

theorem roundMag_eq_infMag_iff {n d : Nat} (hd : 0 < d) : roundMag n d = infMag ↔ overflowUnits * d ≤ n := by
  rw [roundMag_eq_min, min_eq_left_iff, infMag_le_roundPattern_iff hd]

theorem roundMag_eq_roundPattern {n d : Nat} (hd : 0 < d) (h : n < overflowUnits * d) :
    roundMag n d = roundPattern n d := by
  rw [roundMag_eq_min, Nat.min_eq_right]
  exact (Nat.lt_of_not_le fun hinf => h.not_ge ((infMag_le_roundPattern_iff hd).1 hinf)).le

/-! ### Exact values -/

theorem ratOf_of_nonneg {w : F32} (h : 0 ≤ ratOf w) : ratOf w = unitsOf (mag w) / 2 ^ 149 := by
  have h' : 0 ≤ exactUnits w := by
    rw [← ratOf_f0, ratOf_le_iff] at h
    exact (show exactUnits f0 = 0 by decide).symm.trans_le h
  rw [ratOf, exactUnits_of_nonneg h', Int.cast_natCast]

theorem fneg_ofMag_false {m : Nat} (h : m < 2 ^ 31) : fneg (ofMag false m) = ofMag true m :=
  eq_of_sign_mag (by rw [signBit_fneg, signBit_ofMag _ h, signBit_ofMag _ h, Bool.not_false])
    (by rw [mag_fneg, mag_ofMag _ h, mag_ofMag _ h])

theorem abs_units_sub (u n : Nat) {d : Nat} (hd : 0 < d) :
    |(u : ℚ) / 2 ^ 149 - n / d / 2 ^ 149| = ((|(u * d - n : Int)| : Int) : ℚ) / (d * 2 ^ 149) := by
  have hdq : (0 : ℚ) < d := by exact_mod_cast hd
  rw [show (u : ℚ) / 2 ^ 149 - n / d / 2 ^ 149 = ((u * d - n : Int) : ℚ) / (d * 2 ^ 149) by
    push_cast; field_simp, abs_div, Int.cast_abs, abs_of_pos (by positivity : (0 : ℚ) < d * 2 ^ 149)]

/-- `w` is the correctly rounded `q`: the nearest binary32 value below the overflow threshold, an infinity from it
on. -/
def CorrectlyRounded (q : ℚ) (w : F32) : Prop :=
  (|q| < 2 ^ 128 - 2 ^ 103 → IsNearestRat q w) ∧ (2 ^ 128 - 2 ^ 103 ≤ |q| → isInf w = true)

theorem IsNearestRat.neg {q : ℚ} {w : F32} (h : IsNearestRat q w) : IsNearestRat (-q) (fneg w) := by
  obtain ⟨hfin, hnear⟩ := h
  refine ⟨by rwa [finite_fneg], fun v hv => ?_⟩
  have hdist (x : ℚ) : |x - -q| = |-x - q| := by rw [← abs_neg]; ring_nf
  have := hnear (fneg v) (by rwa [finite_fneg])
  rwa [hdist, hdist, ratOf_fneg, neg_neg, mag_fneg, ← neg_eq_iff_eq_neg, ← ratOf_fneg]

theorem CorrectlyRounded.neg {q : ℚ} {w : F32} (h : CorrectlyRounded q w) : CorrectlyRounded (-q) (fneg w) := by
  obtain ⟨hnear, hinf⟩ := h
  rw [CorrectlyRounded, abs_neg]
  exact ⟨fun hq => (hnear hq).neg, fun hq => by simpa [isInf] using hinf hq⟩

/-- `roundPattern_nearest` in values, below the overflow threshold. -/
theorem roundMag_nearest {q : ℚ} {n d : Nat} (hd : 0 < d) (h : n < overflowUnits * d) (hq : q = n / d / 2 ^ 149)
    (m : Nat) :
    |(unitsOf (roundMag n d) : ℚ) / 2 ^ 149 - q| ≤ |(unitsOf m : ℚ) / 2 ^ 149 - q| ∧
      (|(unitsOf (roundMag n d) : ℚ) / 2 ^ 149 - q| = |(unitsOf m : ℚ) / 2 ^ 149 - q| →
        m = roundMag n d ∨ roundMag n d % 2 = 0) := by
  have hdq : (0 : ℚ) < d * 2 ^ 149 := by positivity
  rw [hq, abs_units_sub _ _ hd, abs_units_sub _ _ hd, div_le_div_iff_of_pos_right hdq, div_left_inj' hdq.ne',
    Int.cast_le, Int.cast_inj, roundMag_eq_roundPattern hd h]
  exact roundPattern_nearest hd m

/-- No finite value is nearer to `n / d` units than the rounded magnitude: a negative one is farther than +0.0. -/
theorem isNearestRat_roundMag {n d : Nat} (hd : 0 < d) (h : n < overflowUnits * d) :
    IsNearestRat (n / d / 2 ^ 149) (ofMag false (roundMag n d)) := by
  have hfin : roundMag n d < infMag :=
    (roundMag_le_infMag n d).lt_of_ne fun hinf => h.not_ge ((roundMag_eq_infMag_iff hd).1 hinf)
  have hw : ratOf (ofMag false (roundMag n d)) = unitsOf (roundMag n d) / 2 ^ 149 := by
    rw [ratOf, exactUnits_ofMag _ (roundMag_lt n d)]; simp
  have hq : (0 : ℚ) ≤ n / d / 2 ^ 149 := by positivity
  have hnear := roundMag_nearest hd h rfl
  rw [IsNearestRat, finite_iff, hw, mag_ofMag _ (roundMag_lt n d)]
  refine ⟨hfin, fun v _ => ?_⟩
  generalize (n / d / 2 ^ 149 : ℚ) = q at *
  rcases le_or_gt 0 (ratOf v) with hpos | hneg
  · obtain ⟨hle, heq⟩ := hnear (mag v)
    rw [ratOf_of_nonneg hpos]
    exact ⟨hle, fun h => (heq h).imp_left fun hm => by rw [hm]⟩
  · have hcloser : |(unitsOf (roundMag n d) : ℚ) / 2 ^ 149 - q| < |ratOf v - q| := calc
      _ ≤ |(unitsOf 0 : ℚ) / 2 ^ 149 - q| := (hnear 0).1
      _ = q := by rw [unitsOf_zero, Nat.cast_zero, zero_div, zero_sub, abs_neg, abs_of_nonneg hq]
      _ < |ratOf v - q| := by rw [abs_of_neg (by linarith)]; linarith
    exact ⟨hcloser.le, fun heq => absurd heq hcloser.ne⟩

theorem lt_overflowUnits_iff {n d : Nat} (hd : 0 < d) :
    n < overflowUnits * d ↔ (n / d / 2 ^ 149 : ℚ) < 2 ^ 128 - 2 ^ 103 := by
  have hdq : (0 : ℚ) < d := by exact_mod_cast hd
  rw [div_lt_iff₀ (by positivity), div_lt_iff₀ hdq,
    show ((2 ^ 128 - 2 ^ 103) * 2 ^ 149 : ℚ) = overflowUnits by norm_num [overflowUnits]]
  exact_mod_cast Iff.rfl

theorem correctlyRounded_roundMag {n d : Nat} (hd : 0 < d) :
    CorrectlyRounded (n / d / 2 ^ 149) (ofMag false (roundMag n d)) := by
  rw [CorrectlyRounded, abs_of_nonneg (by positivity), ← not_lt, ← lt_overflowUnits_iff hd, Nat.not_lt]
  refine ⟨isNearestRat_roundMag hd, fun h => ?_⟩
  rw [isInf, mag_ofMag _ (roundMag_lt n d)]
  exact decide_eq_true ((roundMag_eq_infMag_iff hd).2 h)

/-- Rounding a signed exact value `±n/d` units. -/
theorem correctlyRounded_ofMag {q : ℚ} {neg : Bool} {n d : Nat} (hd : 0 < d)
    (hq : q = ((if neg then -(n : Int) else n : Int) : ℚ) / d / 2 ^ 149) :
    CorrectlyRounded q (ofMag neg (roundMag n d)) := by
  cases neg
  · simpa [hq] using correctlyRounded_roundMag hd
  · rw [← fneg_ofMag_false (roundMag_lt n d)]
    have hneg : q = -(n / d / 2 ^ 149) := by rw [hq, if_pos rfl, Int.cast_neg, Int.cast_natCast]; ring
    exact hneg ▸ (correctlyRounded_roundMag hd).neg

/-! ### The four operations -/

theorem signed_units_div (a b : F32) :
    ((if signBit a ^^ signBit b then -((unitsOf (mag a) * 2 ^ 149 : Nat) : Int)
      else ((unitsOf (mag a) * 2 ^ 149 : Nat) : Int) : Int) : ℚ) / unitsOf (mag b) / 2 ^ 149 = ratOf a / ratOf b := by
  have hunit : (2 ^ 149 : ℚ) = ((2 ^ 149 : Nat) : ℚ) := by norm_num
  have hpos : 0 < 2 ^ 149 := Nat.two_pow_pos 149
  unfold ratOf exactUnits
  rw [hunit]
  generalize 2 ^ 149 = u at *
  have hu : (u : ℚ) ≠ 0 := by exact_mod_cast hpos.ne'
  cases signBit a <;> cases signBit b <;> simp <;> field_simp

section
variable {a b : F32} (ha : finite a = true) (hb : finite b = true)
include ha hb

theorem fadd_correctlyRounded : CorrectlyRounded (ratOf a + ratOf b) (fadd a b) := by
  rw [fadd_of_finite ha hb, ratOf_add_eq]
  unfold faddFinite
  dsimp only
  split
  · rename_i hz
    rw [← roundMag_zero one_pos, hz]
    exact correctlyRounded_ofMag one_pos (by simp)
  · exact correctlyRounded_ofMag one_pos (by simp only [decide_eq_true_eq, signed_units_add, Nat.cast_one, div_one])

theorem fsub_correctlyRounded : CorrectlyRounded (ratOf a - ratOf b) (fsub a b) := by
  have hn : finite (fneg b) = true := by rwa [finite_fneg]
  rw [fsub_of_finite ha hb, ← fadd_of_finite ha hn, sub_eq_add_neg, ← ratOf_fneg]
  exact fadd_correctlyRounded ha hn

theorem fmul_correctlyRounded : CorrectlyRounded (ratOf a * ratOf b) (fmul a b) := by
  rw [fmul_of_finite ha hb]
  refine correctlyRounded_ofMag (by positivity) ?_
  rw [signed_units_mul, ratOf, ratOf]
  push_cast
  ring

theorem fdiv_correctlyRounded (h0 : ratOf b ≠ 0) : CorrectlyRounded (ratOf a / ratOf b) (fdiv a b) := by
  have hm : mag b ≠ 0 := fun h => h0 (ratOf_zero_iff.2 h)
  have hpos : 0 < unitsOf (mag b) := Nat.pos_of_ne_zero fun h => hm (unitsOf_eq_zero.1 h)
  rw [fdiv_of_finite ha hb hm]
  exact correctlyRounded_ofMag hpos (signed_units_div a b).symm

end

/-- Settles O35: each operation rounds its exact result once, with `roundMag`. -/
theorem arithmeticIsCorrectlyRounded : Obligations.ArithmeticIsCorrectlyRounded := by
  unfold Obligations.ArithmeticIsCorrectlyRounded
  exact fun a b ha hb => ⟨fadd_correctlyRounded ha hb, fsub_correctlyRounded ha hb, fmul_correctlyRounded ha hb,
    fdiv_correctlyRounded ha hb⟩

end Sys2Proof.Machine
end

section
/-! PROOFS. What the recompute and the phase advance make of legal contents (spec/10_state.md R22, R27, R28;
spec/40_basic_oscillator.md R111): halving a sample rate is exact, and every other operation lies between two values. -/

namespace Sys2Proof.Machine

/-! ### Halving -/

/-- Beyond the first binade, `2 ^ 23` patterns further is twice the magnitude. -/
theorem unitsOf_add_binade {m : Nat} (h : 2 ^ 23 ≤ m) : unitsOf (m + 2 ^ 23) = 2 * unitsOf m := by
  obtain ⟨s, k, rfl, hk, hs, hu⟩ := exists_scaled m
  have hnormal : 2 ^ 23 ≤ k := by omega
  rw [hu, show s * 2 ^ 23 + k + 2 ^ 23 = (s + 1) * 2 ^ 23 + k by ring, unitsOf_scaled hk.le (.inr hnormal), pow_succ]
  ring

/-- Half of a finite value beyond the first binade is a finite value. -/
theorem exists_half {x : F32} (hx : finite x = true) (h : 2 ^ 24 ≤ mag x) :
    ∃ w, finite w = true ∧ ratOf w = ratOf x / 2 := by
  have hlt : mag x - 2 ^ 23 < 2 ^ 31 := by have := mag_lt x; omega
  have hu : unitsOf (mag x) = 2 * unitsOf (mag x - 2 ^ 23) := by
    rw [← unitsOf_add_binade (by omega), Nat.sub_add_cancel (by omega)]
  refine ⟨ofMag (signBit x) (mag x - 2 ^ 23), ?_, ?_⟩
  · rw [finite_iff] at hx ⊢
    rw [mag_ofMag _ hlt]
    omega
  · unfold ratOf
    rw [exactUnits_ofMag _ hlt, exactUnits, hu]
    generalize unitsOf (mag x - 2 ^ 23) = u
    split_ifs <;> push_cast <;> ring

/-! ### Sample rates and the Nyquist limit -/

theorem signBit_false_of_pos {v : F32} (h : 0 < ratOf v) : signBit v = false := by
  refine signBit_false_of_nonneg h.le ?_
  rintro rfl
  exact h.ne' (ratOf_zero_iff.2 (by decide))

theorem ratOf_nonneg_of_legalHertz {v : F32} (h : legalHertz v = true) : 0 ≤ ratOf v :=
  ratOf_nonneg_of_signBit (legalHertz_iff.1 h).2

theorem ratOf_pos_of_legalRate {sr : F32} (h : legalRate sr = true) : 0 < ratOf sr :=
  one_pos.trans_le (legalRate_iff.1 h).2

theorem mag_ge_of_legalRate {sr : F32} (h : legalRate sr = true) : 2 ^ 24 ≤ mag sr := by
  have hkey : orderKey f1 ≤ orderKey sr := orderKey_le_iff.2 (by rw [ratOf_f1]; exact (legalRate_iff.1 h).2)
  rw [show orderKey f1 = 0x3F800000 by decide, orderKey] at hkey
  split at hkey <;> omega

theorem nyquist_eq (sr : F32) : nyquist sr = fmul fHalf sr := rfl

/-- The Nyquist limit is exactly half of the sample rate. -/
theorem nyquist_exact {sr : F32} (h : legalRate sr = true) :
    finite (nyquist sr) = true ∧ ratOf (nyquist sr) = ratOf sr / 2 := by
  have hf := (legalRate_iff.1 h).1
  obtain ⟨w, hw, he⟩ := exists_half hf (mag_ge_of_legalRate h)
  rw [← he, nyquist_eq]
  exact fmul_exact finite_fHalf hf hw (by rw [he, ratOf_fHalf]; ring)

theorem legalHertz_nyquist {sr : F32} (h : legalRate sr = true) : legalHertz (nyquist sr) = true := by
  obtain ⟨hf, he⟩ := nyquist_exact h
  exact legalHertz_iff.2 ⟨hf, signBit_false_of_pos (by rw [he]; exact half_pos (ratOf_pos_of_legalRate h))⟩

/-! ### Increments -/

/-- The recompute's clamp is the minimum of R22. -/
theorem clampHertz_eq_fmin {hz sr : F32} (hh : legalHertz hz = true) (hs : legalRate sr = true) :
    clampHertz hz sr = fmin hz (fmul fHalf sr) := by
  have hf := (legalHertz_iff.1 hh).1
  have hn := (nyquist_exact hs).1
  rw [← nyquist_eq]
  unfold clampHertz fmin fgt
  by_cases hle : fle hz (nyquist sr) = true
  · rw [if_pos hle, if_neg]
    rwa [Bool.not_eq_true, flt_eq_false_iff hn hf, ← fle_iff hf hn]
  · rw [if_neg hle, if_pos]
    rwa [Bool.not_eq_true, fle_eq_false_iff hf hn, ← flt_iff hn hf] at hle

theorem legalHertz_clampHertz {hz sr : F32} (hh : legalHertz hz = true) (hs : legalRate sr = true) :
    legalHertz (clampHertz hz sr) = true := by
  unfold clampHertz
  split
  · exact legalHertz_nyquist hs
  · exact hh

theorem ratOf_clampHertz_le {hz sr : F32} (hh : legalHertz hz = true) (hs : legalRate sr = true) :
    ratOf (clampHertz hz sr) ≤ ratOf (nyquist sr) := by
  unfold clampHertz
  split
  · exact le_rfl
  · next h => rwa [fgt, Bool.not_eq_true, flt_eq_false_iff (nyquist_exact hs).1 (legalHertz_iff.1 hh).1] at h

theorem legalIncrement_increment {hz sr : F32} (hh : legalHertz hz = true) (hs : legalRate sr = true) :
    legalIncrement (increment hz sr) = true := by
  have hc := legalHertz_clampHertz hh hs
  have hpos := ratOf_pos_of_legalRate hs
  have hlow : 0 ≤ ratOf (clampHertz hz sr) / ratOf sr := div_nonneg (ratOf_nonneg_of_legalHertz hc) hpos.le
  have hhigh : ratOf (clampHertz hz sr) / ratOf sr ≤ 1 / 2 := by
    rw [div_le_iff₀ hpos]
    calc ratOf (clampHertz hz sr) ≤ ratOf (nyquist sr) := ratOf_clampHertz_le hh hs
      _ = 1 / 2 * ratOf sr := by rw [(nyquist_exact hs).2]; ring
  rw [legalIncrement_iff, ← ratOf_f0, ← ratOf_fHalf]
  exact fdiv_between (legalHertz_iff.1 hc).1 (legalRate_iff.1 hs).1 hpos.ne' finite_f0 finite_fHalf
    (by rwa [ratOf_f0]) (by rwa [ratOf_fHalf])

theorem increment_eq_incrementByMin {hz sr : F32} (hh : legalHertz hz = true) (hs : legalRate sr = true) :
    increment hz sr = incrementByMin hz sr := by
  rw [increment, incrementByMin, clampHertz_eq_fmin hh hs]

theorem subHertz_eq_subHertzByOct (carrier : F32) (oct : BitVec 2) :
    subHertz carrier oct = subHertzByOct carrier oct := by
  unfold subHertz subHertzByOct
  split <;> rfl

/-- A legal frequency times a factor in [0, 1] is a legal frequency. -/
theorem legalHertz_fmul {hz k : F32} (hh : legalHertz hz = true) (hk : legalHertz k = true) (h1 : ratOf k ≤ 1) :
    legalHertz (fmul hz k) = true := by
  obtain ⟨hf, hs⟩ := legalHertz_iff.1 hh
  obtain ⟨hkf, hks⟩ := legalHertz_iff.1 hk
  have h0 := ratOf_nonneg_of_legalHertz hh
  have hk0 := ratOf_nonneg_of_legalHertz hk
  refine legalHertz_iff.2 ⟨?_, by rw [signBit_fmul hf hkf, hs, hks, Bool.xor_false]⟩
  exact (fmul_between hf hkf finite_f0 hf (by rw [ratOf_f0]; exact mul_nonneg h0 hk0)
    (mul_le_of_le_one_right h0 h1)).1

theorem legalHertz_subHertz {carrier : F32} (h : legalHertz carrier = true) (oct : BitVec 2) :
    legalHertz (subHertz carrier oct) = true := by
  unfold subHertz
  split
  · exact legalHertz_fmul h (by decide) (by rw [ratOf_fHalf]; norm_num)
  · exact legalHertz_fmul h (by decide) (by rw [ratOf_fQuarter]; norm_num)

/-- A legal frequency over a legal rate is no larger than the frequency, so finite. -/
theorem legalHertz_fdiv {hz sr : F32} (hh : legalHertz hz = true) (hs : legalRate sr = true) :
    legalHertz (fdiv hz sr) = true := by
  obtain ⟨hf, hsign⟩ := legalHertz_iff.1 hh
  obtain ⟨hsf, h1⟩ := legalRate_iff.1 hs
  have h0 := ratOf_nonneg_of_legalHertz hh
  have hpos := ratOf_pos_of_legalRate hs
  refine legalHertz_iff.2 ⟨?_, ?_⟩
  · exact (fdiv_between hf hsf hpos.ne' finite_f0 hf (by rw [ratOf_f0]; exact div_nonneg h0 hpos.le)
      (div_le_self h0 h1)).1
  · rw [signBit_fdiv hf hsf hpos.ne', hsign, signBit_false_of_pos hpos, Bool.xor_false]

theorem fdiv_mono {a b sr : F32} (ha : legalHertz a = true) (hb : legalHertz b = true) (hs : legalRate sr = true)
    (hle : ratOf a ≤ ratOf b) : fle (fdiv a sr) (fdiv b sr) = true := by
  have hsf := (legalRate_iff.1 hs).1
  have hm : mag sr ≠ 0 := by have := mag_ge_of_legalRate hs; omega
  have hpos : 0 < unitsOf (mag sr) := Nat.pos_of_ne_zero fun h => hm (unitsOf_eq_zero.1 h)
  have hda := legalHertz_fdiv ha hs
  have hdb := legalHertz_fdiv hb hs
  -- on non-negative values the order of the values is the order of the magnitude patterns
  have hiff {x y : F32} (hx : legalHertz x = true) (hy : legalHertz y = true) :
      ratOf x ≤ ratOf y ↔ mag x ≤ mag y := by
    rw [← orderKey_le_iff, orderKey, orderKey, (legalHertz_iff.1 hx).2, (legalHertz_iff.1 hy).2]
    simp
  rw [fle_iff (legalHertz_iff.1 hda).1 (legalHertz_iff.1 hdb).1, hiff hda hdb,
    fdiv_of_finite (legalHertz_iff.1 ha).1 hsf hm, fdiv_of_finite (legalHertz_iff.1 hb).1 hsf hm, fdivFinite, fdivFinite,
    mag_ofMag _ (roundMag_lt _ _), mag_ofMag _ (roundMag_lt _ _)]
  have hunits := unitsOf_le_iff.2 ((hiff ha hb).1 hle)
  exact roundMag_mono hpos hpos (Nat.mul_le_mul_right _ (Nat.mul_le_mul_right _ hunits))

theorem fdiv_nyquist {sr : F32} (h : legalRate sr = true) : fdiv (nyquist sr) sr = fHalf := by
  obtain ⟨hf, he⟩ := nyquist_exact h
  have hpos := ratOf_pos_of_legalRate h
  have hquot : ratOf (nyquist sr) / ratOf sr = ratOf fHalf := by rw [he, ratOf_fHalf]; field_simp
  have hval := (fdiv_exact hf (legalRate_iff.1 h).1 hpos.ne' finite_fHalf hquot).2
  exact (eq_or_zeros_of_ratOf_eq hval).resolve_right fun hz => absurd hz.2 (by decide)

/-! ### Phases -/

/-- The sum of a legal phase and a legal increment lies in [0, 1.5], and is no -0.0. -/
theorem fadd_phase_bounds {t dt : F32} (ht : legalPhase t = true) (hdt : legalIncrement dt = true) :
    finite (fadd t dt) = true ∧ signBit (fadd t dt) = false ∧ ratOf (fadd t dt) ≤ 3 / 2 := by
  obtain ⟨htf, hts, ht1⟩ := legalPhase_iff.1 ht
  obtain ⟨hdf, hd0, hd1⟩ := legalIncrement_iff.1 hdt
  have hsum : 0 ≤ ratOf t + ratOf dt := add_nonneg (ratOf_nonneg_of_signBit hts) hd0
  have hval : ratOf 0x3FC00000#32 = 3 / 2 := by
    rw [ratOf, show exactUnits 0x3FC00000#32 = 3 * 2 ^ 148 by decide]; norm_num
  obtain ⟨hf, -, hle⟩ := fadd_between htf hdf finite_f0 (u := 0x3FC00000#32) (by decide) (by rwa [ratOf_f0])
    (by rw [hval]; linarith)
  exact ⟨hf, signBit_fadd_of_nonneg htf hdf hsum (.inl hts), hval ▸ hle⟩

/-- The wrap of a non-negative value in [1, 1.5] is a value in [0, 0.5], and no -0.0. -/
theorem fsub_one_bounds {p : F32} (hf : finite p = true) (hs : signBit p = false) (h1 : 1 ≤ ratOf p)
    (h2 : ratOf p ≤ 3 / 2) :
    finite (fsub p f1) = true ∧ signBit (fsub p f1) = false ∧ ratOf (fsub p f1) ≤ 1 / 2 := by
  have hn : finite (fneg f1) = true := by decide
  obtain ⟨hfin, -, hle⟩ := fsub_between hf finite_f1 finite_f0 finite_fHalf (by rw [ratOf_f0, ratOf_f1]; linarith)
    (by rw [ratOf_fHalf, ratOf_f1]; linarith)
  refine ⟨hfin, ?_, by rwa [ratOf_fHalf] at hle⟩
  rw [fsub_of_finite hf finite_f1, ← fadd_of_finite hf hn]
  exact signBit_fadd_of_nonneg hf hn (by rw [ratOf_fneg, ratOf_f1]; linarith) (.inl hs)

theorem legalPhase_advancePhase {t dt : F32} (ht : legalPhase t = true) (hdt : legalIncrement dt = true) :
    legalPhase (advancePhase t dt) = true := by
  obtain ⟨hf, hs, hle⟩ := fadd_phase_bounds ht hdt
  rw [legalPhase_iff]
  unfold advancePhase
  dsimp only
  split
  · next hge =>
    rw [fge, fle_iff finite_f1 hf, ratOf_f1] at hge
    obtain ⟨hwf, hws, hwle⟩ := fsub_one_bounds hf hs hge hle
    exact ⟨hwf, hws, by linarith⟩
  · next hlt =>
    rw [fge, Bool.not_eq_true, fle_eq_false_iff finite_f1 hf, ratOf_f1] at hlt
    exact ⟨hf, hs, hlt⟩

/-! ### Operands and samples -/

theorem legalHertz_sanitiseHertz (x : F32) : legalHertz (sanitiseHertz x) = true := by
  unfold sanitiseHertz
  split
  · decide
  · next hin =>
    simp only [Bool.or_eq_true, Bool.not_eq_true', not_or, Bool.not_eq_false, Bool.not_eq_true] at hin
    obtain ⟨hf, hnneg⟩ := hin
    rw [flt_eq_false_iff hf finite_f0, ratOf_f0] at hnneg
    split
    · decide
    · next hne =>
      rw [feq_iff hf finite_f0, ratOf_f0] at hne
      exact legalHertz_iff.2 ⟨hf, signBit_false_of_pos (lt_of_le_of_ne hnneg (Ne.symm hne))⟩

theorem legalRate_of_not_rateOutOfRange {x : F32} (h : rateOutOfRange x = false) : legalRate x = true := by
  rw [rateOutOfRange, Bool.or_eq_false_iff, Bool.not_eq_false'] at h
  obtain ⟨hf, hlt⟩ := h
  rw [flt_eq_false_iff hf finite_f1, ratOf_f1] at hlt
  exact legalRate_iff.2 ⟨hf, hlt⟩

theorem legalOct_clampOct (imm : BitVec 8) : legalOct (clampOct imm) = true := by
  revert imm
  decide

theorem finite_guardOutput (y : F32) : finite (guardOutput y) = true := by
  unfold guardOutput
  split
  · assumption
  · decide

end Sys2Proof.Machine
end

section
/-! PROOFS. The state each command leaves, as one function: later proofs cite `exec_eq_nextState` and do not unfold the
commands (spec/30_encoding.md R73, spec/10_state.md R20). -/

namespace Sys2Proof.Machine

/-! ### STATUS -/

/-- The STATUS bit of a condition if `b`, else no bit. -/
def raised (b : Bool) (c : Condition) : Word := if b then c.statusBit else 0#32

theorem detectIf_eq_raised (b : Bool) (c : Condition) (s : State) :
    s.detectIf b c = { s with status := s.status ||| raised b c } := by
  cases b
  · simp [State.detectIf, raised]
  · rfl

theorem recompute_eq_raised (s : State) :
    recompute s = { s with
      oscInc := increment s.oscFreq s.sr
      subInc := increment (subHertz s.subCarrier s.subOct) s.sr
      status := s.status ||| raised
        (overNyquist s.oscFreq s.sr || overNyquist (subHertz s.subCarrier s.subOct) s.sr) .configOutOfRange } := by
  unfold recompute
  rw [detectIf_eq_raised]

/-- Bits are only added: the older word is the common part. -/
theorem and_or_absorb (a b : Word) : a &&& (a ||| b) = a := by
  ext i
  simp +contextual

theorem legalStatus_or_statusBit {status : Word} (h : legalStatus status = true) (c : Condition) :
    legalStatus (status ||| c.statusBit) = true := by
  have hbit : c.statusBit &&& 0xFFFFFFF8#32 = 0#32 := by cases c <;> rfl
  rw [legalStatus, beq_iff_eq] at h ⊢
  rw [BitVec.and_comm, BitVec.and_or_distrib_left, BitVec.and_comm, h, BitVec.and_comm, hbit, BitVec.or_self]

theorem legalStatus_or_raised {status : Word} (h : legalStatus status = true) (b : Bool) (c : Condition) :
    legalStatus (status ||| raised b c) = true := by
  cases b
  · simpa [raised] using h
  · exact legalStatus_or_statusBit h c

/-! ### The state a command leaves -/

/-- The state a command leaves: the registers it writes, and after the four writes of R27 the recompute. -/
def nextState : Instr → State → State
  | .nop, s => s
  | .oscProc, s =>
    let y := wave Config.sin2pi s.oscWave s.oscPhase s.oscInc
    { s with
      oscOut := guardOutput y
      oscPhase := advancePhase s.oscPhase s.oscInc
      status := s.status ||| raised (!finite y) .nonFiniteOutput
      respPort := some (guardOutput y) }
  | .oscRst, s => { s with oscPhase := f0, oscOut := f0 }
  | .oscWave imm, s =>
    { s with
      oscWave := clampWave imm
      status := s.status ||| raised (waveOutOfRange imm) .configOutOfRange }
  | .oscFreq x, s =>
    recompute { s with
      oscFreq := sanitiseHertz x
      status := s.status ||| raised (hertzOutOfRange x) .configOutOfRange }
  | .subProc, s =>
    let y := Config.sin2pi s.subPhase
    { s with
      subOut := guardOutput y
      subPhase := advancePhase s.subPhase s.subInc
      status := s.status ||| raised (!finite y) .nonFiniteOutput
      respPort := some (guardOutput y) }
  | .subRst, s => { s with subPhase := f0, subOut := f0 }
  | .subOct imm, s =>
    recompute { s with
      subOct := clampOct imm
      status := s.status ||| raised (octOutOfRange imm) .configOutOfRange }
  | .subCar x, s =>
    recompute { s with
      subCarrier := sanitiseHertz x
      status := s.status ||| raised (hertzOutOfRange x) .configOutOfRange }
  | .setsr x, s =>
    if rateOutOfRange x then { s with status := s.status ||| cfgBit } else recompute { s with sr := x }
  | .read imm, s =>
    { s with
      respPort := some ((readRegister imm s).getD 0#32)
      status := s.status ||| raised (decide (12 ≤ imm.toNat)) .reservedIndex }
  | .clrst, s => { s with status := clearedStatus }

/-- Every command answers a next state, and this one. -/
theorem exec_eq_nextState (i : Instr) (s : State) : exec i s = .next (nextState i s) := by
  cases i with
  | nop | oscRst | subRst | clrst | setsr => rfl
  | oscProc | subProc =>
    simp [exec, execOscProc, execSubProc, oscProcess, subProcess, nextState, detectIf_eq_raised, State.respond, bits]
  | oscWave | oscFreq | subOct | subCar =>
    simp [exec, execOscWave, execOscFreq, execSubOct, execSubCar, nextState, detectIf_eq_raised]
  | read imm =>
    have hstatus : (if imm.toNat < 12 then s.status else s.status ||| illBit) =
        s.status ||| raised (decide (12 ≤ imm.toNat)) .reservedIndex := by
      by_cases h : imm.toNat < 12
      · simp [h, raised, Nat.not_le.2 h]
      · simp [h, raised, Nat.not_lt.1 h, Condition.statusBit]
    simp only [exec, execRead_eq, nextState, readRegister_isSome, decide_eq_true_eq, hstatus]

theorem exec_eq_next_iff {i : Instr} {s t : State} : exec i s = .next t ↔ t = nextState i s := by
  rw [exec_eq_nextState, Host.Outcome.next.injEq, eq_comm]

theorem nextState_setsr_ignored {x : F32} (h : rateOutOfRange x = true) (s : State) :
    nextState (.setsr x) s = { s with status := s.status ||| cfgBit } := if_pos h

theorem nextState_setsr_stored {x : F32} (h : rateOutOfRange x = false) (s : State) :
    nextState (.setsr x) s = recompute { s with sr := x } := by
  rw [nextState, h, if_neg Bool.false_ne_true]

/-- What every part of a step keeps, a step keeps. -/
theorem step_keeps {P : State → Prop} (idle : ∀ s, P s → P s.takeResponse)
    (send : ∀ rest s, P s → P (s.sendNext rest)) (command : ∀ i s, P s → P (nextState i s))
    (illegal : ∀ s, P s → P (performIllegal s)) (reset : ∀ s : State, P s.powerOn)
    {s t : State} (hs : P s) (hstep : step s = .next t) : P t := by
  rcases step_cases s with ⟨-, h⟩ | ⟨c, i, rest, -, -, h⟩ | ⟨c, e, rest, -, -, h⟩ | ⟨rest, -, h⟩
  · cases h.symm.trans hstep
    exact idle s hs
  · rw [exec_eq_nextState] at h
    cases h.symm.trans hstep
    exact command i _ (send rest s hs)
  · cases h.symm.trans hstep
    exact illegal _ (send rest s hs)
  · cases h.symm.trans hstep
    exact reset _

theorem step_answers (s : State) : ∃ t, step s = .next t := by
  rcases step_cases s with ⟨-, h⟩ | ⟨c, i, rest, -, -, h⟩ | ⟨c, e, rest, -, -, h⟩ | ⟨rest, -, h⟩
  · exact ⟨_, h⟩
  · exact ⟨_, h.trans (exec_eq_nextState i _)⟩
  · exact ⟨_, h⟩
  · exact ⟨_, h⟩

theorem run_succ_of_step {s u : State} (h : step s = .next u) (n : Nat) :
    Sys2Proof.core.run (n + 1) s = Sys2Proof.core.run n u := by
  have hstep : Sys2Proof.core.step s = .next u := h
  simp only [Host.Core.run, hstep]

/-- What every step keeps, any number of steps keep. -/
theorem run_keeps {P : State → Prop} (hkeeps : ∀ {s t : State}, P s → step s = .next t → P t) (n : Nat) {s : State}
    (hs : P s) : ∃ t : State, Sys2Proof.core.run n s = .next t ∧ P t := by
  induction n generalizing s with
  | zero => exact ⟨s, rfl, hs⟩
  | succ n ih =>
    obtain ⟨u, hu⟩ := step_answers s
    obtain ⟨t, ht, hP⟩ := ih (hkeeps hs hu)
    exact ⟨t, (run_succ_of_step hu n).trans ht, hP⟩

end Sys2Proof.Machine
end

section
/-! PROOFS. Every step keeps the legal contents of the registers and the increments that the recompute gives for them
(spec/10_state.md R20, R22, R27, R28, R35). -/

namespace Sys2Proof.Machine

/-! ### Legal registers -/

/-- `State.legal`, register by register (R20). -/
structure LegalRegisters (s : State) : Prop where
  oscPhase : legalPhase s.oscPhase = true
  oscInc : legalIncrement s.oscInc = true
  oscFreq : legalHertz s.oscFreq = true
  oscOut : finite s.oscOut = true
  subPhase : legalPhase s.subPhase = true
  subInc : legalIncrement s.subInc = true
  subCarrier : legalHertz s.subCarrier = true
  subOct : legalOct s.subOct = true
  subOut : finite s.subOut = true
  sr : legalRate s.sr = true
  status : legalStatus s.status = true

theorem State.legal_iff (s : State) : s.legal = true ↔ LegalRegisters s := by
  simp only [State.legal, Bool.and_eq_true, and_assoc]
  constructor
  · rintro ⟨oscPhase, oscInc, oscFreq, oscOut, subPhase, subInc, subCarrier, subOct, subOut, sr, status⟩
    exact { oscPhase, oscInc, oscFreq, oscOut, subPhase, subInc, subCarrier, subOct, subOut, sr, status }
  · intro h
    exact ⟨h.oscPhase, h.oscInc, h.oscFreq, h.oscOut, h.subPhase, h.subInc, h.subCarrier, h.subOct, h.subOut, h.sr,
      h.status⟩

theorem LegalRegisters.recompute {s : State} (h : LegalRegisters s) : LegalRegisters (recompute s) := by
  rw [recompute_eq_raised]
  exact { h with
    oscInc := legalIncrement_increment h.oscFreq h.sr
    subInc := legalIncrement_increment (legalHertz_subHertz h.subCarrier _) h.sr
    status := legalStatus_or_raised h.status _ _ }

theorem LegalRegisters.nextState {s : State} (h : LegalRegisters s) (i : Instr) : LegalRegisters (nextState i s) := by
  have hf0 : legalPhase f0 = true := by decide
  have hclear : legalStatus clearedStatus = true := by decide
  have hstatus := legalStatus_or_raised h.status
  cases i with
  | nop => exact h
  | oscProc =>
    exact { h with
      oscOut := finite_guardOutput _
      oscPhase := legalPhase_advancePhase h.oscPhase h.oscInc
      status := hstatus _ _ }
  | oscRst => exact { h with oscPhase := hf0, oscOut := finite_f0 }
  | oscWave => exact { h with status := hstatus _ _ }
  | oscFreq x =>
    exact LegalRegisters.recompute { h with oscFreq := legalHertz_sanitiseHertz x, status := hstatus _ _ }
  | subProc =>
    exact { h with
      subOut := finite_guardOutput _
      subPhase := legalPhase_advancePhase h.subPhase h.subInc
      status := hstatus _ _ }
  | subRst => exact { h with subPhase := hf0, subOut := finite_f0 }
  | subOct imm =>
    exact LegalRegisters.recompute { h with subOct := legalOct_clampOct imm, status := hstatus _ _ }
  | subCar x =>
    exact LegalRegisters.recompute { h with subCarrier := legalHertz_sanitiseHertz x, status := hstatus _ _ }
  | setsr x =>
    cases hx : rateOutOfRange x
    · rw [nextState_setsr_stored hx]
      exact LegalRegisters.recompute { h with sr := legalRate_of_not_rateOutOfRange hx }
    · rw [nextState_setsr_ignored hx]
      exact { h with status := legalStatus_or_statusBit h.status .configOutOfRange }
  | read => exact { h with status := hstatus _ _ }
  | clrst => exact { h with status := hclear }

theorem legalRegisters_reset : LegalRegisters State.reset := by
  rw [← State.legal_iff]
  decide

theorem LegalRegisters.step {s t : State} (h : LegalRegisters s) (hstep : step s = .next t) : LegalRegisters t :=
  step_keeps (fun _ h => { h with }) (fun _ _ h => { h with }) (fun i _ h => h.nextState i)
    (fun _ h => { h with status := legalStatus_or_statusBit h.status .illegalWord })
    (fun _ => { legalRegisters_reset with }) h hstep

/-- Settles O39: each part of a step keeps each register's legal contents. -/
theorem stepKeepsLegalRegisters : Obligations.StepKeepsLegalRegisters := by
  unfold Obligations.StepKeepsLegalRegisters
  intro s t hs hstep
  rw [State.legal_iff] at hs ⊢
  exact hs.step hstep

/-- Settles O40. -/
theorem resetIsLegal : Obligations.ResetIsLegal := (State.legal_iff _).2 legalRegisters_reset

/-- Settles O41, by induction on the number of steps from the legal registers of reset. -/
theorem everyReachableStateIsLegal : Obligations.EveryReachableStateIsLegal := by
  unfold Obligations.EveryReachableStateIsLegal
  intro inputs n
  obtain ⟨t, ht, hlegal⟩ :=
    run_keeps LegalRegisters.step n (s := { State.reset with cmdPort := inputs }) { legalRegisters_reset with }
  exact ⟨t, ht, (State.legal_iff t).2 hlegal⟩

/-! ### The recompute and the increments -/

theorem recompute_recompute (s : State) : recompute (recompute s) = recompute s := by
  simp [recompute_eq_raised, BitVec.or_assoc]

/-- After a write to OSC_FREQ, SUB_CARRIER, SUB_OCT or SR the recompute runs, and neither phase has moved. -/
theorem nextState_eq_recompute {i : Instr} (s : State)
    (hi : (∃ x, i = .oscFreq x) ∨ (∃ x, i = .subCar x) ∨ (∃ imm, i = .subOct imm) ∨
      ∃ x, i = .setsr x ∧ rateOutOfRange x = false) :
    ∃ u, nextState i s = recompute u ∧ u.oscPhase = s.oscPhase ∧ u.subPhase = s.subPhase := by
  rcases hi with ⟨x, rfl⟩ | ⟨x, rfl⟩ | ⟨imm, rfl⟩ | ⟨x, rfl, hx⟩
  · exact ⟨_, rfl, rfl, rfl⟩
  · exact ⟨_, rfl, rfl, rfl⟩
  · exact ⟨_, rfl, rfl, rfl⟩
  · exact ⟨{ s with sr := x }, nextState_setsr_stored hx s, rfl, rfl⟩

/-- Settles O23: R27's lines are `recompute_eq`, and a second recompute finds the registers of the first. -/
theorem recomputeBothIncrements : Obligations.RecomputeBothIncrements := by
  unfold Obligations.RecomputeBothIncrements
  refine ⟨recompute_eq, fun i s hi => ?_⟩
  obtain ⟨u, hu, hosc, hsub⟩ := nextState_eq_recompute s (i := i) (by
    simpa [rateOutOfRange, f1] using hi)
  refine ⟨recompute u, by rw [exec_eq_nextState, hu], recompute_recompute u, ?_, ?_⟩
  · rw [recompute_eq, ← hosc]
  · rw [recompute_eq, ← hsub]

/-- Settles O33. -/
theorem incrementBounds : Obligations.IncrementBounds := by
  unfold Obligations.IncrementBounds
  have hbounds {hz sr : F32} (hh : legalHertz hz = true) (hs : legalRate sr = true) :
      fle f0 (increment hz sr) = true ∧ fle (increment hz sr) fHalf = true := by
    simpa only [legalIncrement, Bool.and_eq_true] using legalIncrement_increment hh hs
  refine ⟨fun hz sr hh hs => ?_, fun a b sr ha hb hs hle => fdiv_mono ha hb hs hle,
    fun carrier sr oct hc hs => hbounds (legalHertz_subHertz hc oct) hs, fun sr hs => fdiv_nyquist hs⟩
  exact ⟨ratOf_nonneg_of_legalHertz (legalHertz_clampHertz hh hs), ratOf_clampHertz_le hh hs, hbounds hh hs⟩

/-- Both increments are what the recompute writes for the registers they depend on (R27). -/
def IncrementsRecomputed (s : State) : Prop :=
  s.oscInc = increment s.oscFreq s.sr ∧ s.subInc = increment (subHertz s.subCarrier s.subOct) s.sr

/-- On legal registers R22's increments are the recompute's. -/
theorem LegalRegisters.incrementsDerived_iff {s : State} (h : LegalRegisters s) :
    s.incrementsDerived ↔ IncrementsRecomputed s := by
  rw [State.incrementsDerived, IncrementsRecomputed, ← subHertz_eq_subHertzByOct,
    increment_eq_incrementByMin h.oscFreq h.sr,
    increment_eq_incrementByMin (legalHertz_subHertz h.subCarrier s.subOct) h.sr]

theorem incrementsRecomputed_recompute (s : State) : IncrementsRecomputed (recompute s) := by
  rw [recompute_eq]
  exact ⟨rfl, rfl⟩

/-- A command that writes a register the increments depend on recomputes them. -/
theorem IncrementsRecomputed.nextState {s : State} (h : IncrementsRecomputed s) (i : Instr) :
    IncrementsRecomputed (nextState i s) := by
  cases i with
  | oscFreq | subOct | subCar => exact incrementsRecomputed_recompute _
  | setsr x =>
    cases hx : rateOutOfRange x
    · rw [nextState_setsr_stored hx]
      exact incrementsRecomputed_recompute _
    · rw [nextState_setsr_ignored hx]
      exact h
  | nop | oscProc | oscRst | oscWave | subProc | subRst | read | clrst => exact h

theorem IncrementsRecomputed.step {s t : State} (h : IncrementsRecomputed s) (hstep : step s = .next t) :
    IncrementsRecomputed t :=
  have hreset : IncrementsRecomputed State.reset := ⟨by decide, by decide⟩
  step_keeps (fun _ h => h) (fun _ _ h => h) (fun i _ h => h.nextState i) (fun _ h => h) (fun _ => hreset) h hstep

/-- Settles O42: the recompute's increments are kept by every step, and on legal registers, kept as well, they are
R22's. -/
theorem stepKeepsIncrementsDerived : Obligations.StepKeepsIncrementsDerived := by
  unfold Obligations.StepKeepsIncrementsDerived
  intro s t hs hderived hstep
  rw [State.legal_iff] at hs
  rw [hs.incrementsDerived_iff] at hderived
  exact (hs.step hstep).incrementsDerived_iff.2 (hderived.step hstep)

end Sys2Proof.Machine
end

section
/-! PROOFS. What each command leaves alone, and what it does not read: registers change only by their writers
(spec/10_state.md R20), STATUS is sticky and has no effect (R31), OSC_OUT and SUB_OUT are never fed back (R25, R26). -/

namespace Sys2Proof.Machine

/-! ### Writers -/

/-- Settles O44: on recomputed increments a recompute changes only the increment whose registers were written. -/
theorem registersChangeOnlyByTheirWriters : Obligations.RegistersChangeOnlyByTheirWriters := by
  unfold Obligations.RegistersChangeOnlyByTheirWriters
  intro i s t hs hderived hexec
  rw [State.legal_iff] at hs
  obtain ⟨hosc, hsub⟩ := hs.incrementsDerived_iff.1 hderived
  obtain rfl := exec_eq_next_iff.1 hexec
  cases i with
  | nop | oscProc | oscRst | oscWave | subProc | subRst | read | clrst => simp [nextState]
  | oscFreq | subOct | subCar => simp [nextState, recompute_eq, ← hosc, ← hsub]
  | setsr x =>
    cases hx : rateOutOfRange x
    · simp [nextState_setsr_stored hx, recompute_eq]
    · simp [nextState_setsr_ignored hx]

/-! ### STATUS -/

theorem recordCondition_recordCondition (c : Condition) (status : Word) :
    recordCondition c (recordCondition c status) = recordCondition c status := by
  rw [recordCondition, recordCondition, BitVec.or_assoc, BitVec.or_self]

/-- Every command but CLRST only adds STATUS bits. -/
theorem nextState_status {i : Instr} (hi : i ≠ .clrst) (s : State) :
    ∃ added, (nextState i s).status = s.status ||| added := by
  cases i with
  | nop | oscRst | subRst => exact ⟨0#32, BitVec.or_zero.symm⟩
  | oscProc | oscWave | subProc | read => exact ⟨_, rfl⟩
  | oscFreq | subOct | subCar => exact ⟨_, by rw [nextState, recompute_eq_raised, BitVec.or_assoc]⟩
  | setsr x =>
    cases hx : rateOutOfRange x
    · exact ⟨_, by rw [nextState_setsr_stored hx, recompute_eq_raised]⟩
    · exact ⟨_, by rw [nextState_setsr_ignored hx]⟩
  | clrst => exact absurd rfl hi

/-- A step that performs neither CLRST nor power-on reset keeps every set STATUS bit. -/
theorem step_status_sticky {s t : State} (hstep : step s = .next t)
    (hclrst : ∀ c rest, s.cmdPort = .command c :: rest → decode c ≠ .ok .clrst)
    (hreset : ∀ rest, s.cmdPort ≠ .powerOnReset :: rest) : s.status &&& t.status = s.status := by
  rcases step_cases s with ⟨-, h⟩ | ⟨c, i, rest, hport, hdec, h⟩ | ⟨c, e, rest, -, -, h⟩ | ⟨rest, hport, -⟩
  · cases h.symm.trans hstep
    exact BitVec.and_self
  · obtain rfl := exec_eq_next_iff.1 (h.symm.trans hstep)
    have hi : i ≠ .clrst := fun hi => hclrst c rest hport (hi ▸ hdec)
    obtain ⟨added, hadded⟩ := nextState_status hi (s.sendNext rest)
    rw [hadded]
    exact and_or_absorb _ _
  · cases h.symm.trans hstep
    exact and_or_absorb _ _
  · exact absurd hport (hreset rest)

theorem readRegister_with_status {imm : BitVec 8} (h : imm ≠ 11#8) (s : State) (v : Word) :
    readRegister imm { s with status := v } = readRegister imm s := by
  have h11 : imm.toNat ≠ 11 := fun h' => h (BitVec.eq_of_toNat_eq h')
  unfold readRegister
  rw [immediate_eq]
  split
  case h_12 hindex => exact absurd hindex h11
  all_goals rfl

/-- From another STATUS a command leaves the same state but for STATUS and, at READ 11, the response. -/
theorem nextState_with_status (i : Instr) (s : State) (v : Word) :
    ∃ status resp, nextState i { s with status := v } = { nextState i s with status := status, respPort := resp } ∧
      (i ≠ .read 11#8 → resp = (nextState i s).respPort) := by
  cases i with
  | read imm =>
    refine ⟨_, _, rfl, fun hi => ?_⟩
    rw [readRegister_with_status fun h => hi (h ▸ rfl), nextState]
  | oscFreq | subOct | subCar =>
    simp only [nextState, recompute_eq]
    exact ⟨_, _, rfl, fun _ => rfl⟩
  | setsr x =>
    cases hx : rateOutOfRange x
    · simp only [nextState_setsr_stored hx, recompute_eq]
      exact ⟨_, _, rfl, fun _ => rfl⟩
    · simp only [nextState_setsr_ignored hx]
      exact ⟨_, _, rfl, fun _ => rfl⟩
  | nop | oscProc | oscRst | oscWave | subProc | subRst | clrst => exact ⟨_, _, rfl, fun _ => rfl⟩

/-- Settles O46: STATUS words only grow, and enter no other register of the next state. -/
theorem statusIsStickyAndWithoutEffect : Obligations.StatusIsStickyAndWithoutEffect := by
  unfold Obligations.StatusIsStickyAndWithoutEffect
  refine ⟨fun s t hstep hclrst hreset => step_status_sticky hstep hclrst hreset, fun i s t v hexec => ?_,
    recordCondition_recordCondition⟩
  obtain rfl := exec_eq_next_iff.1 hexec
  obtain ⟨status, resp, hnext, hresp⟩ := nextState_with_status i s v
  exact ⟨_, exec_eq_nextState i _, by rw [hnext], fun hi => by rw [hnext, hresp hi]⟩

/-! ### Telemetry -/

theorem readRegister_with_outputs {imm : BitVec 8} (h4 : imm ≠ 4#8) (h9 : imm ≠ 9#8) (s : State) (a b : F32) :
    readRegister imm { s with oscOut := a, subOut := b } = readRegister imm s := by
  have h4' : imm.toNat ≠ 4 := fun h => h4 (BitVec.eq_of_toNat_eq h)
  have h9' : imm.toNat ≠ 9 := fun h => h9 (BitVec.eq_of_toNat_eq h)
  unfold readRegister
  rw [immediate_eq]
  split
  case h_5 hindex => exact absurd hindex h4'
  case h_10 hindex => exact absurd hindex h9'
  all_goals rfl

/-- From other values in OSC_OUT and SUB_OUT a command leaves the same state but for the two and, at READ 4 and READ 9,
the response. -/
theorem nextState_with_outputs (i : Instr) (s : State) (a b : F32) :
    ∃ oscOut subOut resp, nextState i { s with oscOut := a, subOut := b } =
        { nextState i s with oscOut := oscOut, subOut := subOut, respPort := resp } ∧
      (i ≠ .read 4#8 → i ≠ .read 9#8 → resp = (nextState i s).respPort) := by
  cases i with
  | read imm =>
    refine ⟨_, _, _, rfl, fun h4 h9 => ?_⟩
    rw [readRegister_with_outputs (fun h => h4 (h ▸ rfl)) (fun h => h9 (h ▸ rfl)), nextState]
  | oscFreq | subOct | subCar =>
    simp only [nextState, recompute_eq]
    exact ⟨_, _, _, rfl, fun _ _ => rfl⟩
  | setsr x =>
    cases hx : rateOutOfRange x
    · simp only [nextState_setsr_stored hx, recompute_eq]
      exact ⟨_, _, _, rfl, fun _ _ => rfl⟩
    · simp only [nextState_setsr_ignored hx]
      exact ⟨_, _, _, rfl, fun _ _ => rfl⟩
  | nop | oscProc | oscRst | oscWave | subProc | subRst | clrst => exact ⟨_, _, _, rfl, fun _ _ => rfl⟩

/-- Settles O52: no register of the next state but OSC_OUT and SUB_OUT depends on the two. -/
theorem outputsAreNeverFedBack : Obligations.OutputsAreNeverFedBack := by
  unfold Obligations.OutputsAreNeverFedBack
  intro i s t a b hexec
  obtain rfl := exec_eq_next_iff.1 hexec
  obtain ⟨oscOut, subOut, resp, hnext, hresp⟩ := nextState_with_outputs i s a b
  exact ⟨_, exec_eq_nextState i _, by rw [hnext], fun h4 h9 => by rw [hnext, hresp h4 h9]⟩

end Sys2Proof.Machine
end

section
/-! PROOFS. A host's byte buffer (spec/20_memory.md R52) and its command stream: what a step performs, the order of the
responses (R53, R240), later inputs (R56, R60) and repeated commands (R57). -/

namespace Sys2Proof

/-! ### A host's byte buffer -/

/-- The four byte fields of a word, highest first, make up the word. -/
theorem append_byteFields (w : Word) :
    w.extractLsb' 24 8 ++ w.extractLsb' 16 8 ++ w.extractLsb' 8 8 ++ w.extractLsb' 0 8 = w := by
  simp only [BitVec.extractLsb'_append_extractLsb'_eq_extractLsb', BitVec.extractLsb'_eq_self]

/-- A stored word is four bytes, and they hold it. -/
theorem bytesOfWord_eq (o : ByteOrder) (w : Word) :
    ∃ b0 b1 b2 b3, bytesOfWord o w = [b0, b1, b2, b3] ∧ wordOfBytes o b0 b1 b2 b3 = w := by
  cases o with
  | little => exact ⟨_, _, _, _, rfl, append_byteFields w⟩
  | big => exact ⟨_, _, _, _, rfl, append_byteFields w⟩

/-- Settles O8, word by word. -/
theorem hostBytesRoundTrip : Obligations.HostBytesRoundTrip := by
  unfold Obligations.HostBytesRoundTrip
  intro o c rest
  obtain ⟨a0, a1, a2, a3, hcw, hcw'⟩ := bytesOfWord_eq o c.cw
  obtain ⟨b0, b1, b2, b3, hdw, hdw'⟩ := bytesOfWord_eq o c.dw
  simp only [bytesOfCommand, hcw, hdw, List.cons_append, List.nil_append, commandOfBytes, hcw', hdw']

end Sys2Proof

namespace Sys2Proof.Machine

/-! ### One input of the host -/

theorem step_cons {s : State} {inp : HostInput} {rest : List HostInput} (h : s.cmdPort = inp :: rest) :
    step s = perform inp (s.sendNext rest) := by
  rw [step, h]

theorem perform_command_of_decode {c : Command} {i : Instr} (h : decode c = .ok i) (s : State) :
    perform (.command c) s = exec i s := by
  rw [perform, performCommand, h]

theorem perform_command_of_illegal {c : Command} {e : Illegal} (h : decode c = .error e) (s : State) :
    perform (.command c) s = .next (performIllegal s) := by
  rw [perform, performCommand, h]

/-- Settles O37: the state it spells out is `State.sendNext`. -/
theorem stepRunsTheDecodedCommand : Obligations.StepRunsTheDecodedCommand := by
  unfold Obligations.StepRunsTheDecodedCommand
  intro s c i rest hport hdec
  rw [step_cons hport, perform_command_of_decode hdec]
  rfl

/-! ### Responses -/

/-- A command that responds: OSC.PROC, SUB.PROC or READ (R53). -/
def Responds (i : Instr) : Prop := i = .oscProc ∨ i = .subProc ∨ ∃ imm, i = .read imm

/-- On an empty port a command leaves a word exactly if it responds. -/
theorem nextState_respPort_isSome {s : State} (hs : s.respPort = none) (i : Instr) :
    (nextState i s).respPort.isSome = true ↔ Responds i := by
  cases i with
  | oscProc | subProc | read => simp [nextState, Responds]
  | setsr x => cases hx : rateOutOfRange x <;> simp [nextState, hx, hs, Responds]
  | nop | oscRst | oscWave | oscFreq | subRst | subOct | subCar | clrst => simp [nextState, hs, Responds]

theorem nextState_respTaken (i : Instr) (s : State) : (nextState i s).respTaken = s.respTaken := by
  cases i with
  | oscFreq | subOct | subCar => exact recompute_respTaken _
  | setsr x => cases hx : rateOutOfRange x <;> simp [nextState, hx]
  | nop | oscProc | oscRst | oscWave | subProc | subRst | read | clrst => rfl

/-- After a step, an idle one as well, the host has taken every earlier response. -/
theorem step_respTaken {s t : State} (hstep : step s = .next t) : t.respTaken = s.responses := by
  rcases step_cases s with ⟨-, h⟩ | ⟨c, i, rest, -, -, h⟩ | ⟨c, e, rest, -, -, h⟩ | ⟨rest, -, h⟩
  · cases h.symm.trans hstep
    rfl
  · obtain rfl := exec_eq_next_iff.1 (h.symm.trans hstep)
    exact nextState_respTaken i _
  · cases h.symm.trans hstep
    rfl
  · cases h.symm.trans hstep
    rfl

/-- The port, empty once the input is sent, holds a word exactly after a legal command that responds. -/
theorem perform_respPort_isSome {s t : State} {inp : HostInput} (hs : s.respPort = none)
    (hperform : perform inp s = .next t) :
    t.respPort.isSome = true ↔ ∃ c i, inp = .command c ∧ decode c = .ok i ∧ Responds i := by
  cases inp with
  | command c =>
    cases hdec : decode c with
    | ok i =>
      rw [perform_command_of_decode hdec] at hperform
      obtain rfl := exec_eq_next_iff.1 hperform
      simp [nextState_respPort_isSome hs, hdec]
    | error e =>
      cases (perform_command_of_illegal hdec s).symm.trans hperform
      simp [hs, hdec]
  | powerOnReset =>
    cases hperform
    simp [State.reset]

theorem responses_prefix_of_step {s t : State} (hstep : step s = .next t) : s.responses <+: t.responses :=
  ⟨t.respPort.toList, by rw [← step_respTaken hstep, State.responses]⟩

theorem responses_prefix_of_run {n : Nat} {s t : State} (hrun : Sys2Proof.core.run n s = .next t) :
    s.responses <+: t.responses := by
  obtain ⟨u, hu, hprefix⟩ := run_keeps (P := fun u => s.responses <+: u.responses)
    (fun h hstep => h.trans (responses_prefix_of_step hstep)) n (List.prefix_refl s.responses)
  cases hu.symm.trans hrun
  exact hprefix

/-- Settles O48. -/
theorem responsesLeaveInOrder : Obligations.ResponsesLeaveInOrder := by
  unfold Obligations.ResponsesLeaveInOrder
  refine ⟨fun s t inp rest hport hstep => ⟨step_respTaken hstep, ?_⟩, fun n s t hrun => ?_⟩
  · exact perform_respPort_isSome (State.sendNext_respPort rest s) ((step_cons hport).symm.trans hstep)
  · obtain ⟨later, hlater⟩ := responses_prefix_of_run hrun
    exact ⟨later, hlater.symm⟩

/-! ### Later inputs -/

/-- No command reads or changes what the host has still to send. -/
theorem nextState_with_cmdPort (i : Instr) (s : State) (later : List HostInput) :
    nextState i { s with cmdPort := later } = { nextState i s with cmdPort := later } := by
  cases i with
  | oscFreq | subOct | subCar => simp only [nextState, recompute_eq]
  | setsr x =>
    cases hx : rateOutOfRange x
    · simp only [nextState_setsr_stored hx, recompute_eq]
    · simp only [nextState_setsr_ignored hx]
  | nop | oscProc | oscRst | oscWave | subProc | subRst | read | clrst => rfl

theorem perform_with_cmdPort {inp : HostInput} {s t : State} (h : perform inp s = .next t) (later : List HostInput) :
    perform inp { s with cmdPort := later } = .next { t with cmdPort := later } := by
  cases inp with
  | command c =>
    cases hdec : decode c with
    | ok i =>
      rw [perform_command_of_decode hdec] at h ⊢
      obtain rfl := exec_eq_next_iff.1 h
      rw [exec_eq_nextState, nextState_with_cmdPort]
    | error e =>
      cases (perform_command_of_illegal hdec s).symm.trans h
      exact perform_command_of_illegal hdec _
  | powerOnReset =>
    cases h
    rfl

/-- Settles O49. -/
theorem laterInputsHaveNoEffect : Obligations.LaterInputsHaveNoEffect := by
  unfold Obligations.LaterInputsHaveNoEffect
  intro s t inp rest rest' hstep
  rw [step_cons rfl] at hstep ⊢
  exact perform_with_cmdPort hstep rest'

/-! ### Repeated commands -/

/-- A reserved index sets STATUS.ILL, and only index 11 reads STATUS: the next READ finds the same word. -/
theorem readRegister_nextState_read (imm : BitVec 8) (s : State) :
    readRegister imm (nextState (.read imm) s) = readRegister imm s := by
  by_cases h : imm = 11#8
  · subst h
    simp [readRegister, nextState, raised]
  · exact readRegister_with_status h { s with respPort := _ } _

theorem or_or_repeat (w a b : Word) : w ||| a ||| b ||| a ||| b = w ||| a ||| b := by
  rw [BitVec.or_assoc, BitVec.or_assoc w a b, BitVec.or_assoc, BitVec.or_self]

/-- All but the two PROCs, which advance a phase, leave at once what they leave when repeated. -/
theorem nextState_nextState {i : Instr} (hosc : i ≠ .oscProc) (hsub : i ≠ .subProc) (s : State) :
    nextState i (nextState i s) = nextState i s := by
  cases i with
  | nop | oscRst | subRst | clrst => rfl
  | oscProc => exact absurd rfl hosc
  | subProc => exact absurd rfl hsub
  | oscWave => simp only [nextState, BitVec.or_assoc, BitVec.or_self]
  | oscFreq | subOct | subCar => simp only [nextState, recompute_eq_raised, or_or_repeat]
  | setsr x =>
    cases hx : rateOutOfRange x
    · simp only [nextState_setsr_stored hx, recompute_eq_raised, BitVec.or_assoc, BitVec.or_self]
    · simp only [nextState_setsr_ignored hx, BitVec.or_assoc, BitVec.or_self]
  | read imm =>
    rw [nextState, readRegister_nextState_read]
    simp only [nextState, BitVec.or_assoc, BitVec.or_self]

/-- Settles O50: the five SET commands and READ are idempotent on the whole state. -/
theorem setCommandsAreIdempotent : Obligations.SetCommandsAreIdempotent := by
  unfold Obligations.SetCommandsAreIdempotent
  refine ⟨fun i s t hi hexec => ?_, fun imm s t hexec => ?_⟩
  · obtain rfl := exec_eq_next_iff.1 hexec
    have hosc : i ≠ .oscProc := by rintro rfl; simp at hi
    have hsub : i ≠ .subProc := by rintro rfl; simp at hi
    rw [exec_eq_nextState, nextState_nextState hosc hsub]
  · obtain rfl := exec_eq_next_iff.1 hexec
    exact ⟨_, exec_eq_nextState _ _, by rw [nextState_nextState (i := .read imm) nofun nofun]⟩

end Sys2Proof.Machine
end

section
/-! PROOFS. The decoder and the encoder against the opcode map, and what an illegal pair does (spec/30_encoding.md R70 to
R77). -/

namespace Sys2Proof

/-! ### Decoding -/

theorem decode_of_rsv_ne {c : Command} (h : rsvField c.cw ≠ 0#16) : decode c = .error .rsvNotZero := by
  rw [decode, if_neg h]

theorem requireNoImm_eq_ok_iff {cw : Word} {i j : Instr} :
    requireNoImm cw i = .ok j ↔ immField cw = 0#8 ∧ i = j := by
  unfold requireNoImm
  split <;> simp [*]

theorem requireNoImm_isError_iff {cw : Word} {i : Instr} :
    (∃ e, requireNoImm cw i = .error e) ↔ immField cw ≠ 0#8 := by
  unfold requireNoImm
  split <;> simp [*]

theorem decode_isError_iff_not_ok (c : Command) : (∃ e, decode c = .error e) ↔ ¬ ∃ i, decode c = .ok i := by
  cases decode c <;> simp

/-- The command with `dw` for its data operand: a command of form N or I has none (R71). -/
def Instr.withData (dw : Word) : Instr → Instr
  | .oscFreq _ => .oscFreq dw
  | .subCar _ => .subCar dw
  | .setsr _ => .setsr dw
  | i => i

theorem Instr.withData_encode_dw (i : Instr) : i.withData (encode i).dw = i := by
  cases i <;> rfl

/-- The command word of `i` decodes to `i` with any data word, which is its operand in form D and ignored in the other
forms (R71, R72). -/
theorem decode_encode_cw (i : Instr) (dw : Word) : decode ⟨(encode i).cw, dw⟩ = .ok (i.withData dw) := by
  cases i <;>
    simp [encode, decode, decodeOp, requireNoImm, rsvField_commandWord, opField_commandWord, immField_commandWord,
      Instr.withData]

/-- Only the encoder's command word of `i` decodes to `i`. -/
theorem cw_eq_of_decode {c : Command} {i : Instr} (h : decode c = .ok i) : c.cw = (encode i).cw := by
  have hrsv := rsvField_of_decode h
  rw [decode_of_rsv hrsv] at h
  rw [← commandWord_fields hrsv]
  unfold decodeOp at h
  split at h
  case h_4 hop | h_8 hop | h_11 hop => cases h; rw [hop, encode]
  case h_13 => cases h
  all_goals
    rename_i hop
    obtain ⟨himm, rfl⟩ := requireNoImm_eq_ok_iff.1 h
    rw [hop, himm, encode]

/-- Settles O1: the encoder's data word is the operand that its command word is decoded with. -/
theorem decodeEncodeRoundTrip : Obligations.DecodeEncodeRoundTrip := by
  unfold Obligations.DecodeEncodeRoundTrip
  intro i
  exact (decode_encode_cw i (encode i).dw).trans (congrArg Except.ok i.withData_encode_dw)

/-! ### The rows of the opcode map -/

/-- An encoded command word is legal, by `EncodeLegal` for each command. -/
theorem legalWord_encode (i : Instr) : legalWord (encode i).cw = true := by
  cases i with
  | nop => exact Laws.EncodeLegal.nop.1
  | oscProc => exact Laws.EncodeLegal.oscProc.1
  | oscRst => exact Laws.EncodeLegal.oscRst.1
  | oscWave imm => exact (Laws.EncodeLegal.oscWave imm).1
  | oscFreq x => exact (Laws.EncodeLegal.oscFreq x).1
  | subProc => exact Laws.EncodeLegal.subProc.1
  | subRst => exact Laws.EncodeLegal.subRst.1
  | subOct imm => exact (Laws.EncodeLegal.subOct imm).1
  | subCar x => exact (Laws.EncodeLegal.subCar x).1
  | setsr x => exact (Laws.EncodeLegal.setsr x).1
  | read imm => exact (Laws.EncodeLegal.read imm).1
  | clrst => exact Laws.EncodeLegal.clrst.1

theorem legalWord_of_decode {c : Command} {i : Instr} (h : decode c = .ok i) : legalWord c.cw = true := by
  rw [cw_eq_of_decode h]
  exact legalWord_encode i

theorem exists_error_of_not_legalWord {c : Command} (h : legalWord c.cw = false) : ∃ e, decode c = .error e := by
  rw [decode_isError_iff_not_ok]
  rintro ⟨i, hi⟩
  rw [legalWord_of_decode hi] at h
  cases h

theorem legalWord_iff_exists_row (cw : Word) : legalWord cw = true ↔ ∃ r ∈ opcodeTable, r.selects cw = true := by
  rw [legalWord, List.any_eq_true]

theorem opField_and (a b : Word) : opField (a &&& b) = opField a &&& opField b := BitVec.extractLsb'_and

theorem rsvField_and (a b : Word) : rsvField (a &&& b) = rsvField a &&& rsvField b := BitVec.extractLsb'_and

/-- A row whose mask covers the whole word selects one word only. -/
theorem decode_of_full_mask {cw : Word} (i : Instr) (dw : Word) (h : cw &&& 0xFFFFFFFF#32 = (encode i).cw) :
    decode ⟨cw, dw⟩ = .ok (i.withData dw) := by
  obtain rfl : cw = (encode i).cw := BitVec.and_allOnes.symm.trans h
  exact decode_encode_cw i dw

/-- A row whose mask leaves IMM8 out selects the words of its opcode with RSV = 0. -/
theorem eq_commandWord_of_imm_mask {cw : Word} {op : BitVec 8} (h : cw &&& 0xFFFF00FF#32 = commandWord op 0#8) :
    cw = commandWord op (immField cw) := by
  have hop : opField cw = op := by
    rw [← opField_commandWord op 0#8, ← h, opField_and]
    exact BitVec.and_allOnes.symm
  have hrsv : rsvField cw = 0#16 := by
    rw [← rsvField_commandWord op 0#8, ← h, rsvField_and]
    exact BitVec.and_allOnes.symm
  rw [← hop, commandWord_fields hrsv]

theorem immField_eq_ofNat (cw : Word) : immField cw = BitVec.ofNat 8 (cw.toNat / 256) := by
  apply BitVec.eq_of_toNat_eq
  rw [immField_toNat, BitVec.toNat_ofNat]

/-- A form I row decodes to its command `i`, with IMM8 for operand. -/
theorem decode_of_imm_mask {cw : Word} {op : BitVec 8} (i : BitVec 8 → Instr) (dw : Word)
    (hi : ∀ imm, (encode (i imm)).cw = commandWord op imm) (h : cw &&& 0xFFFF00FF#32 = commandWord op 0#8) :
    decode ⟨cw, dw⟩ = .ok ((i (BitVec.ofNat 8 (cw.toNat / 256))).withData dw) := by
  have hcw : cw = (encode (i (immField cw))).cw := (eq_commandWord_of_imm_mask h).trans (hi _).symm
  rw [← immField_eq_ofNat, ← decode_encode_cw, ← hcw]

/-- Every mask of the table covers CW[7:0] (R73). -/
theorem opField_matchBits_of_selects {r : OpcodeRow} {cw : Word} (hr : r ∈ opcodeTable) (h : r.selects cw = true) :
    opField r.matchBits = opField cw := by
  have hmask : ∀ r ∈ opcodeTable, opField r.mask = BitVec.allOnes 8 := by decide
  have hmatch : cw &&& r.mask = r.matchBits := by simpa [OpcodeRow.selects] using h
  rw [← hmatch, opField_and, hmask r hr, BitVec.and_allOnes]

/-- The opcodes of the table are distinct (R73). -/
theorem row_eq_of_opField_eq : ∀ r₁ ∈ opcodeTable, ∀ r₂ ∈ opcodeTable,
    opField r₁.matchBits = opField r₂.matchBits → r₁ = r₂ := by decide

/-- Settles O2: a full mask selects one word, a mask without IMM8 the words of one opcode, and the opcodes are distinct. -/
theorem opcodeMapRows : Obligations.OpcodeMapRows := by
  unfold Obligations.OpcodeMapRows
  refine ⟨fun cw dw => ⟨decode_of_full_mask .nop dw, decode_of_full_mask .oscProc dw, decode_of_full_mask .oscRst dw,
    decode_of_imm_mask .oscWave dw fun _ => rfl, decode_of_full_mask (.oscFreq dw) dw, decode_of_full_mask .subProc dw,
    decode_of_full_mask .subRst dw, decode_of_imm_mask .subOct dw fun _ => rfl, decode_of_full_mask (.subCar dw) dw,
    decode_of_full_mask (.setsr dw) dw, decode_of_imm_mask .read dw fun _ => rfl, decode_of_full_mask .clrst dw,
    fun hnone => ?_⟩, fun cw r₁ h₁ r₂ h₂ hs₁ hs₂ => ?_, rfl⟩
  · apply exists_error_of_not_legalWord
    rw [← Bool.not_eq_true, legalWord_iff_exists_row]
    rintro ⟨r, hr, hs⟩
    rw [hnone r hr] at hs
    cases hs
  · apply row_eq_of_opField_eq r₁ h₁ r₂ h₂
    rw [opField_matchBits_of_selects h₁ hs₁, opField_matchBits_of_selects h₂ hs₂]

/-! ### Legal and illegal words -/

/-- Each row that selects a word decodes it, whatever its data word. -/
theorem exists_decode_of_row {cw : Word} (dw : Word) (h : ∃ r ∈ opcodeTable, r.selects cw = true) :
    ∃ i, decode ⟨cw, dw⟩ = .ok i := by
  obtain ⟨nop, oscProc, oscRst, oscWave, oscFreq, subProc, subRst, subOct, subCar, setsr, read, clrst, -⟩ :=
    opcodeMapRows.1 cw dw
  simp only [opcodeTable, OpcodeRow.selects, beq_iff_eq, List.mem_cons, List.not_mem_nil, or_false, exists_eq_or_imp,
    exists_eq_left] at h
  rcases h with h | h | h | h | h | h | h | h | h | h | h | h
  exacts [⟨_, nop h⟩, ⟨_, oscProc h⟩, ⟨_, oscRst h⟩, ⟨_, oscWave h⟩, ⟨_, oscFreq h⟩, ⟨_, subProc h⟩, ⟨_, subRst h⟩,
    ⟨_, subOct h⟩, ⟨_, subCar h⟩, ⟨_, setsr h⟩, ⟨_, read h⟩, ⟨_, clrst h⟩]

/-- With RSV = 0 a word is illegal by its opcode, or by IMM8 where the form has no immediate (R74). -/
theorem decodeOp_isError_iff (cw dw : Word) :
    (∃ e, decodeOp cw dw = .error e) ↔
      opField cw ∉ [0x00#8, 0x01#8, 0x02#8, 0x03#8, 0x04#8, 0x11#8, 0x12#8, 0x13#8, 0x14#8, 0x20#8, 0x21#8, 0x22#8] ∨
      (opField cw ∈ [0x00#8, 0x01#8, 0x02#8, 0x04#8, 0x11#8, 0x12#8, 0x14#8, 0x20#8, 0x22#8] ∧
        immField cw ≠ 0#8) := by
  unfold decodeOp
  split
  case h_13 =>
    simp only [imp_false] at *
    simp [*]
  all_goals
    rename_i hop
    simp [hop, requireNoImm_isError_iff]

theorem opField_mem_iff (cw : Word) (ops : List (BitVec 8)) :
    opField cw ∈ ops ↔ cw.toNat % 256 ∈ ops.map BitVec.toNat := by
  rw [← opField_toNat, List.mem_map_of_injective fun _ _ => BitVec.eq_of_toNat_eq]

theorem immField_eq_zero_iff (cw : Word) : immField cw = 0#8 ↔ cw.toNat / 256 % 256 = 0 := by
  rw [← BitVec.toNat_inj, immField_toNat]; rfl

theorem rsvField_eq_zero_iff (cw : Word) : rsvField cw = 0#16 ↔ cw.toNat / 65536 = 0 := by
  rw [← BitVec.toNat_inj, rsvField_toNat]; rfl

/-- The three cases of an illegal word (R74), on the word as a number. -/
theorem decode_isError_iff (cw dw : Word) :
    (∃ e, decode ⟨cw, dw⟩ = .error e) ↔
      cw.toNat % 256 ∉ [0x00, 0x01, 0x02, 0x03, 0x04, 0x11, 0x12, 0x13, 0x14, 0x20, 0x21, 0x22] ∨
      cw.toNat / 65536 ≠ 0 ∨
      (cw.toNat % 256 ∈ [0x00, 0x01, 0x02, 0x04, 0x11, 0x12, 0x14, 0x20, 0x22] ∧ cw.toNat / 256 % 256 ≠ 0) := by
  by_cases h : rsvField cw = 0#16
  · rw [decode_of_rsv (c := ⟨cw, dw⟩) h, decodeOp_isError_iff, opField_mem_iff, opField_mem_iff, ne_eq,
      immField_eq_zero_iff]
    simp [(rsvField_eq_zero_iff cw).1 h]
  · rw [decode_of_rsv_ne (c := ⟨cw, dw⟩) h]
    simp [mt (rsvField_eq_zero_iff cw).2 h]

/-- Settles O3: a row decodes the words it selects (O2), and a word that decodes is an encoded one, which is legal. -/
theorem legalExactlyWhenARowMatches : Obligations.LegalExactlyWhenARowMatches := by
  unfold Obligations.LegalExactlyWhenARowMatches
  intro cw dw
  refine ⟨⟨fun ⟨i, hi⟩ => ?_, exists_decode_of_row dw⟩, decode_isError_iff cw dw⟩
  exact (legalWord_iff_exists_row cw).1 (legalWord_of_decode hi)

end Sys2Proof

namespace Sys2Proof.Machine

/-! ### An illegal pair -/

theorem step_of_illegal {s : State} {c : Command} {e : Illegal} {rest : List HostInput}
    (hport : s.cmdPort = .command c :: rest) (hdec : decode c = .error e) :
    step s = .next (performIllegal (s.sendNext rest)) := by
  rw [step_cons hport, perform_command_of_illegal hdec]

@[simp] theorem performIllegal_ill (s : State) : (performIllegal s).ill = true := by
  simp [State.ill, recordCondition, Condition.statusBit, illBit]

/-- Settles O4: no reserved opcode is in the list of the twelve. -/
theorem reservedOpcodesSetIll : Obligations.ReservedOpcodesSetIll := by
  unfold Obligations.ReservedOpcodesSetIll
  intro c s rest hop hport
  have hreserved : c.cw.toNat % 256 ∉
      [0x00, 0x01, 0x02, 0x03, 0x04, 0x11, 0x12, 0x13, 0x14, 0x20, 0x21, 0x22] := by
    simp only [List.mem_cons, List.not_mem_nil, or_false]
    omega
  obtain ⟨e, hdec⟩ := (decode_isError_iff c.cw c.dw).2 (.inl hreserved)
  exact ⟨⟨e, hdec⟩, _, step_of_illegal hport hdec, performIllegal_ill _, rfl, rfl⟩

/-- Settles O5: a word that no row selects does not decode. -/
theorem illegalPairSetsOnlyIll : Obligations.IllegalPairSetsOnlyIll := by
  unfold Obligations.IllegalPairSetsOnlyIll
  intro c s rest hillegal hport
  obtain ⟨e, hdec⟩ := exists_error_of_not_legalWord hillegal
  exact ⟨_, step_of_illegal hport hdec, rfl, rfl, rfl⟩

end Sys2Proof.Machine
end

section
/-! PROOFS. Lines of assembly: the worked encodings and the pseudo-instructions (spec/30_encoding.md R79 to R81). -/

namespace Sys2Proof.Machine

/-! ### The tokens of a line -/

/-- A single token: characters that neither part two tokens nor begin a comment. -/
def isToken (cs : List Char) : Bool := !cs.isEmpty && cs.all fun c => !isBlank c && c != ',' && c != ';'

theorem tokensFrom_append {cs : List Char} (h : ∀ c ∈ cs, isBlank c = false ∧ (c == ',') = false)
    (acc line : List Char) : tokensFrom acc (cs ++ line) = tokensFrom (acc ++ cs) line := by
  induction cs generalizing acc with
  | nil => simp
  | cons c cs ih =>
    obtain ⟨⟨hblank, hcomma⟩, hcs⟩ := List.forall_mem_cons.1 h
    simp [tokensFrom, hblank, hcomma, ih hcs]

theorem isToken_iff {cs : List Char} :
    isToken cs = true ↔ cs ≠ [] ∧ (∀ c ∈ cs, isBlank c = false ∧ (c == ',') = false) ∧ ∀ c ∈ cs, (c != ';') = true := by
  simp [isToken, and_assoc, forall_and]

theorem tokens_of_isToken {cs : List Char} (h : isToken cs = true) : tokens cs = [cs] := by
  obtain ⟨hne, hword, hcomment⟩ := isToken_iff.1 h
  have hcut : cs.takeWhile (· != ';') = cs := List.takeWhile_eq_self_iff.2 hcomment
  rw [tokens, hcut]
  simpa [tokensFrom, flushToken, hne] using tokensFrom_append hword [] []

theorem tokens_append_blank {m : List Char} (h : isToken m = true) (line : List Char) :
    tokens (m ++ ' ' :: line) = m :: tokens line := by
  obtain ⟨hne, hword, hcomment⟩ := isToken_iff.1 h
  have hcut : (m ++ ' ' :: line).takeWhile (· != ';') = m ++ ' ' :: line.takeWhile (· != ';') := by
    rw [List.takeWhile_append_of_pos hcomment, List.takeWhile_cons_of_pos (by decide)]
  rw [tokens, hcut, tokensFrom_append hword, tokens]
  simp [tokensFrom, isBlank, flushToken, hne]

/-! ### Lines without a data word (R79) -/

/-- A mnemonic alone. -/
theorem assembleLine_mnemonic {m : List Char} (h : isToken m = true) :
    assembleLine m = (asmInstrs m []).map (List.map encode) := by
  simp only [assembleLine, tokens_of_isToken h, List.takeWhile_nil, List.dropWhile_nil]
  cases asmInstrs m [] <;> rfl

/-- A mnemonic and its operand. -/
theorem assembleLine_operand (m t : List Char) (hm : isToken m = true) (ht : isToken t = true) :
    assembleLine (m ++ ' ' :: t) = (asmInstrs m [t]).map (List.map encode) := by
  have hcomma : (t != [',']) = true := by rw [bne_iff_ne]; rintro rfl; exact absurd ht (by decide)
  simp only [assembleLine, tokens_append_blank hm, tokens_of_isToken ht, List.takeWhile, List.dropWhile, hcomma]
  cases asmInstrs m [t] <;> rfl

theorem assembleLine_operand_of_eq {m t : List Char} {is : List Instr} (hm : isToken m = true) (ht : isToken t = true)
    (h : asmInstrs m [t] = .ok is) : assembleLine (m ++ ' ' :: t) = .ok (is.map encode) := by
  rw [assembleLine_operand m t hm ht, h, Except.map]

/-- A form D mnemonic and a token that reads as `x` give the commands of the mnemonic's row. -/
theorem asmInstrs_data {m t : List Char} {x : F32} {row : String × (F32 → List Instr)} {is : List Instr}
    (hx : dataOperand t = some x) (hnone : asmNone.find? (·.1.toList = m) = none)
    (himm : asmImm.find? (·.1.toList = m) = none) (hdata : asmData.find? (·.1.toList = m) = some row)
    (his : row.2 x = is) : asmInstrs m [t] = .ok is := by
  simp only [asmInstrs, hnone, himm, hdata, hx, his]

theorem dataOperand_440 : dataOperand "440.0".toList = some 0x43DC0000#32 := by decide

theorem dataOperand_48000 : dataOperand "48000.0".toList = some 0x473B8000#32 := by decide

/-! ### The worked encodings (R81) -/

theorem decode_rsv_example (dw : Word) : decode ⟨0x00010001#32, dw⟩ = .error .rsvNotZero := by
  simp [decode, rsvField]

theorem decode_imm_example (dw : Word) : decode ⟨0x00000101#32, dw⟩ = .error .immNotZero := by
  simp [decode, rsvField, decodeOp, opField, requireNoImm, immField]

theorem decode_reserved_example (dw : Word) : decode ⟨0x00000005#32, dw⟩ = .error .reservedOpcode := by
  simp [decode, rsvField, decodeOp, opField]

/-- Settles O6: each worked pair is the encoding of the command its line stands for. -/
theorem workedEncodings : Obligations.WorkedEncodings := by
  unfold Obligations.WorkedEncodings
  have hfreq : asmInstrs "OSC.FREQ".toList ["440.0".toList] = .ok [.oscFreq 0x43DC0000#32] :=
    asmInstrs_data dataOperand_440 rfl rfl rfl rfl
  have hwave : asmInstrs "OSC.WAVE".toList ["saw".toList] = .ok [.oscWave 2#8] := rfl
  have hoct : asmInstrs "SUB.OCT".toList ["2".toList] = .ok [.subOct 2#8] := rfl
  have hsetsr : asmInstrs "SETSR".toList ["48000.0".toList] = .ok [.setsr 0x473B8000#32] :=
    asmInstrs_data dataOperand_48000 rfl rfl rfl rfl
  have hread : asmInstrs "READ".toList ["STATUS".toList] = .ok [.read 11#8] := rfl
  exact ⟨assembleLine_operand_of_eq (by decide) (by decide) hfreq, decodeEncodeRoundTrip (.oscFreq 0x43DC0000#32),
    assembleLine_operand_of_eq (by decide) (by decide) hwave, decodeEncodeRoundTrip (.oscWave 2#8),
    assembleLine_operand_of_eq (by decide) (by decide) hoct, decodeEncodeRoundTrip (.subOct 2#8),
    assembleLine_operand_of_eq (by decide) (by decide) hsetsr, decodeEncodeRoundTrip (.setsr 0x473B8000#32),
    assembleLine_operand_of_eq (by decide) (by decide) hread, decodeEncodeRoundTrip (.read 11#8),
    fun dw => ⟨decode_rsv_example dw, decode_imm_example dw, decode_reserved_example dw⟩⟩

/-! ### The pseudo-instructions (R80) -/

theorem assembleLine_prepare {t : List Char} (h : isToken t = true) :
    assembleLine ("PREPARE".toList ++ ' ' :: t) = assembleLine ("SETSR".toList ++ ' ' :: t) := by
  have hinstrs : asmInstrs "PREPARE".toList [t] = asmInstrs "SETSR".toList [t] := rfl
  rw [assembleLine_operand _ t (by decide) h, assembleLine_operand _ t (by decide) h, hinstrs]

theorem assembleLine_subLock {t : List Char} (h : isToken t = true) :
    assembleLine ("SUB.LOCK".toList ++ ' ' :: t) = assembleLine ("SUB.CAR".toList ++ ' ' :: t) := by
  have hinstrs : asmInstrs "SUB.LOCK".toList [t] = asmInstrs "SUB.CAR".toList [t] := rfl
  rw [assembleLine_operand _ t (by decide) h, assembleLine_operand _ t (by decide) h, hinstrs]

/-- Settles O7: the expansion of each mnemonic is its row of the assembler's tables. -/
theorem pseudoInstructionsExpand : Obligations.PseudoInstructionsExpand := by
  unfold Obligations.PseudoInstructionsExpand
  exact ⟨assembleLine_prepare (t := "44100.0".toList) (by decide), assembleLine_mnemonic (by decide),
    assembleLine_mnemonic (by decide), assembleLine_mnemonic (by decide), assembleLine_mnemonic (by decide),
    assembleLine_mnemonic (by decide), assembleLine_mnemonic (by decide), assembleLine_mnemonic (by decide),
    assembleLine_mnemonic (by decide), assembleLine_subLock (t := "440.0".toList) (by decide), fun _ => ⟨rfl, rfl⟩⟩

end Sys2Proof.Machine
end

section
/-! PROOFS. Exact results of the binary32 operations (spec/00_scope.md R9): which dyadic rationals are binary32 values,
and operations whose exact result is one. -/

namespace Sys2Proof.Machine

/-! ### Dyadic values -/

/-- A significand of at most `2 ^ 24` at any scale is a magnitude pattern: it is doubled until it is normal. -/
theorem exists_unitsOf_eq {k : Nat} (hk : k ≤ 2 ^ 24) (s : Nat) : ∃ m, unitsOf m = k * 2 ^ s := by
  induction s generalizing k with
  | zero => exact ⟨0 * 2 ^ 23 + k, unitsOf_scaled hk (.inl rfl)⟩
  | succ s ih =>
    by_cases hnormal : 2 ^ 23 ≤ k
    · exact ⟨_, unitsOf_scaled hk (.inr hnormal)⟩
    · obtain ⟨m, hm⟩ := ih (k := 2 * k) (by omega)
      exact ⟨m, by rw [hm, pow_succ]; ring⟩

/-- An integer of at most 25 bits over `2 ^ e` is a finite value. -/
theorem exists_ratOf_eq_dyadic {j : Int} {e : Nat} (hj : j.natAbs ≤ 2 ^ 24) (he : e ≤ 149) :
    ∃ v, finite v = true ∧ ratOf v = j / 2 ^ e := by
  obtain ⟨m, hm⟩ := exists_unitsOf_eq hj (149 - e)
  have hfin : m < infMag := by
    rw [← unitsOf_lt_iff, hm, unitsOf_infMag]
    exact Nat.mul_lt_mul_of_lt_of_le (by omega) (Nat.pow_le_pow_right (by norm_num) (by omega)) (by positivity)
  have hm31 : m < 2 ^ 31 := hfin.trans (by norm_num [infMag])
  have hunits : exactUnits (ofMag (decide (j < 0)) m) = j * 2 ^ (149 - e) := by
    rw [exactUnits_ofMag _ hm31, hm]
    simp only [decide_eq_true_eq]
    split
    · rw [Nat.cast_mul, ← neg_mul, Int.natCast_natAbs, abs_of_neg ‹_›, neg_neg]; norm_num
    · rw [Nat.cast_mul, Int.natCast_natAbs, abs_of_nonneg (by omega)]; norm_num
  refine ⟨ofMag (decide (j < 0)) m, by rwa [finite_iff, mag_ofMag _ hm31], ?_⟩
  rw [ratOf, hunits, div_eq_div_iff (by positivity) (by positivity), Int.cast_mul, mul_assoc, Int.cast_pow,
    Int.cast_ofNat, ← pow_add, Nat.sub_add_cancel he]

/-- A finite value of at least 1 is a multiple of `2 ^ -23`. -/
theorem exists_eq_div_of_one_le {u : F32} (h : 1 ≤ ratOf u) : ∃ n : Int, ratOf u = n / 2 ^ 23 := by
  obtain ⟨s, k, -, hk, -, hu⟩ := exists_scaled (mag u)
  have hval := ratOf_of_nonneg (zero_le_one.trans h)
  have hs : 126 ≤ s := by
    rw [hval, le_div_iff₀ (by positivity), one_mul, hu] at h
    have hle : 2 ^ 149 ≤ k * 2 ^ s := by exact_mod_cast h
    by_contra hlt
    have hsmall : k * 2 ^ s < 2 ^ 24 * 2 ^ 125 :=
      Nat.mul_lt_mul_of_lt_of_le hk (Nat.pow_le_pow_right (by norm_num) (by omega)) (by positivity)
    omega
  obtain ⟨r, rfl⟩ := Nat.exists_eq_add_of_le hs
  refine ⟨k * 2 ^ r, ?_⟩
  rw [hval, hu, pow_add]
  push_cast
  field_simp
  norm_num

/-- Subtracting 1.0 from a value in [1, 2] is exact: the difference is a multiple of `2 ^ -23` again. -/
theorem fsub_one_exact {u : F32} (hf : finite u = true) (h1 : 1 ≤ ratOf u) (h2 : ratOf u ≤ 2) :
    finite (fsub u f1) = true ∧ ratOf (fsub u f1) = ratOf u - 1 := by
  obtain ⟨n, hn⟩ := exists_eq_div_of_one_le h1
  have hlow : 2 ^ 23 ≤ n := by
    rw [hn, le_div_iff₀ (by positivity)] at h1
    exact_mod_cast h1
  have hhigh : n ≤ 2 * 2 ^ 23 := by
    rw [hn, div_le_iff₀ (by positivity)] at h2
    exact_mod_cast h2
  have hdiff : ratOf u - 1 = ((n - 2 ^ 23 : Int) : ℚ) / 2 ^ 23 := by
    rw [hn]; push_cast; ring
  obtain ⟨w, hw, he⟩ := exists_ratOf_eq_dyadic (j := n - 2 ^ 23) (e := 23) (by omega) (by norm_num)
  rw [hdiff, ← he]
  exact fsub_exact hf finite_f1 hw (by rw [ratOf_f1, hdiff, he])

/-! ### Results that are known patterns -/

/-- Non-negative patterns of one value are one pattern: neither is -0.0. -/
theorem eq_of_ratOf_eq {a b : F32} (ha : signBit a = false) (hb : signBit b = false) (h : ratOf a = ratOf b) :
    a = b :=
  (eq_or_zeros_of_ratOf_eq h).elim id fun hz => eq_of_sign_mag (ha.trans hb.symm) (hz.1.trans hz.2.symm)

/-- Adding +0.0 to a non-negative pattern gives it back. -/
theorem fadd_f0 {a : F32} (hf : finite a = true) (hs : signBit a = false) : fadd a f0 = a := by
  have hsum : ratOf a + ratOf f0 = ratOf a := by rw [ratOf_f0, add_zero]
  refine eq_of_ratOf_eq (signBit_fadd_of_nonneg hf finite_f0 ?_ (.inl hs)) hs (fadd_exact hf finite_f0 hf hsum).2
  rw [hsum]
  exact ratOf_nonneg_of_signBit hs

/-- Subtracting +0.0 from a finite pattern gives it back, -0.0 too. -/
theorem fsub_f0 {a : F32} (hf : finite a = true) : fsub a f0 = a := by
  by_cases hzero : mag a = 0
  · have hunits : exactUnits a + exactUnits (fneg f0) = 0 := by
      rw [exactUnits_fneg, show exactUnits f0 = 0 by decide, exactUnits, hzero]
      simp
    rw [fsub_of_finite hf finite_f0, faddFinite, if_pos hunits, show signBit (fneg f0) = true by decide, Bool.and_true,
      ← hzero, ofMag_sign_mag]
  · have hval := (fsub_exact hf finite_f0 hf (by rw [ratOf_f0, sub_zero])).2
    exact (eq_or_zeros_of_ratOf_eq hval).resolve_right fun hz => hzero hz.2

/-- +0.0 over a positive value is +0.0. -/
theorem f0_fdiv {d : F32} (hf : finite d = true) (h : 0 < ratOf d) : fdiv f0 d = f0 := by
  have hval := (fdiv_exact finite_f0 hf h.ne' finite_f0 (by rw [ratOf_f0, zero_div])).2
  refine eq_of_ratOf_eq ?_ rfl hval
  rw [signBit_fdiv finite_f0 hf h.ne', signBit_false_of_pos h]
  rfl

end Sys2Proof.Machine
end

section
/-! PROOFS. The waveforms on legal phases and increments (spec/40_basic_oscillator.md R100 to R107, R111, R112): each
intermediate result stays between two values that the exact one lies between. -/

namespace Sys2Proof.Machine

/-! ### The waveform of each code (R100) -/

@[simp] theorem wave_zero (sin : F32 → F32) (t dt : F32) : wave sin 0#2 t dt = sine sin t := if_pos rfl

@[simp] theorem wave_one (sin : F32 → F32) (t dt : F32) : wave sin 1#2 t dt = tri t := by
  rw [wave, if_neg (by decide), if_pos rfl]

@[simp] theorem wave_two (sin : F32 → F32) (t dt : F32) : wave sin 2#2 t dt = saw t dt := by
  rw [wave, if_neg (by decide), if_neg (by decide), if_pos rfl]

@[simp] theorem wave_three (sin : F32 → F32) (t dt : F32) : wave sin 3#2 t dt = pulse t dt := by
  rw [wave, if_neg (by decide), if_neg (by decide), if_neg (by decide)]

/-- Settles O24: the four waveforms by code are R102 to R108 as they stand. -/
theorem waveSelectsByCode : Obligations.WaveSelectsByCode := by
  unfold Obligations.WaveSelectsByCode
  intro sin t dt
  exact ⟨wave_zero sin t dt, wave_one sin t dt, wave_two sin t dt, wave_three sin t dt⟩

/-! ### The reference sine (R101) -/

/-- The binary32 value nearest to a binary32 value is that value. -/
theorem IsNearestReal.eq_of_exact {v w : F32} (h : IsNearestReal (ratOf v) w) (hf : finite v = true)
    (hv : v ≠ negZero) : w = v := by
  obtain ⟨-, hw, hnear⟩ := h
  have hdist : |(ratOf w : ℝ) - ratOf v| ≤ 0 := by simpa using (hnear v hf).1
  have hval : ratOf w = ratOf v := by exact_mod_cast sub_eq_zero.1 (abs_nonpos_iff.1 hdist)
  refine (eq_or_zeros_of_ratOf_eq hval).elim id fun hz => ?_
  have hsign {x : F32} (hx : x ≠ negZero) (hm : mag x = 0) : signBit x = false :=
    signBit_false_of_nonneg (ratOf_zero_iff.2 hm).ge hx
  exact eq_of_ratOf_eq (hsign hw hz.1) (hsign hv hz.2) hval

/-- Where the exact sine is a binary32 value, the reference evaluator gives it. -/
theorem Sin2PiRef.eq_of_exact {sin : F32 → F32} (h : Sin2PiRef sin) {x v : F32} (hx : finite x = true)
    (hv : finite v = true) (hz : v ≠ negZero) (heq : Real.sin (2 * Real.pi * (ratOf x : ℝ)) = ratOf v) :
    sin x = v := by
  have hnear := h x hx
  rw [Sin2PiRefAt, heq] at hnear
  exact hnear.eq_of_exact hv hz

theorem ratOf_threeQuarters : ratOf 0x3F400000#32 = 3 / 4 := by
  rw [ratOf, show exactUnits 0x3F400000#32 = 3 * 2 ^ 147 by decide]; norm_num

/-- Settles O25: the four sines are 0, 1, 0 and -1, each a binary32 value. -/
theorem referenceSineAtQuarters : Obligations.ReferenceSineAtQuarters := by
  unfold Obligations.ReferenceSineAtQuarters
  refine ⟨wave_zero, fun sin h => ⟨?_, ?_, ?_, ?_⟩⟩
  · apply h.eq_of_exact (x := f0) (v := f0) (by decide) (by decide) (by decide)
    simp
  · apply h.eq_of_exact (x := fQuarter) (v := f1) (by decide) (by decide) (by decide)
    rw [ratOf_fQuarter, ratOf_f1]; push_cast
    rw [show 2 * Real.pi * (1 / 4) = Real.pi / 2 by ring, Real.sin_pi_div_two]
  · apply h.eq_of_exact (x := fHalf) (v := f0) (by decide) (by decide) (by decide)
    rw [ratOf_fHalf, ratOf_f0]; push_cast
    rw [show 2 * Real.pi * (1 / 2) = Real.pi by ring, Real.sin_pi]
  · apply h.eq_of_exact (x := 0x3F400000#32) (v := fNeg1) (by decide) (by decide) (by decide)
    rw [ratOf_threeQuarters, ratOf_fNeg1]; push_cast
    rw [show 2 * Real.pi * (3 / 4) = Real.pi / 2 + Real.pi by ring, Real.sin_add_pi, Real.sin_pi_div_two]

/-! ### The naive waveforms (R102 to R104) -/

theorem ratOf_fneg_f2 : ratOf (fneg f2) = -2 := by rw [ratOf_fneg, ratOf_f2]

/-- A sample's range: a finite value in [-1, 1]. -/
def InUnitRange (w : F32) : Prop := finite w = true ∧ -1 ≤ ratOf w ∧ ratOf w ≤ 1

theorem inUnitRange_fsub_one {a : F32} (hf : finite a = true) (h0 : 0 ≤ ratOf a) (h2 : ratOf a ≤ 2) :
    InUnitRange (fsub a f1) := by
  rw [InUnitRange, ← ratOf_fNeg1, ← ratOf_f1]
  exact fsub_between hf finite_f1 finite_fNeg1 finite_f1 (by rw [ratOf_fNeg1, ratOf_f1]; linarith)
    (by rw [ratOf_f1]; linarith)

theorem inUnitRange_fadd_one {a : F32} (hf : finite a = true) (h0 : -2 ≤ ratOf a) (h2 : ratOf a ≤ 0) :
    InUnitRange (fadd a f1) := by
  rw [InUnitRange, ← ratOf_fNeg1, ← ratOf_f1]
  exact fadd_between hf finite_f1 finite_fNeg1 finite_f1 (by rw [ratOf_fNeg1, ratOf_f1]; linarith)
    (by rw [ratOf_f1]; linarith)

/-- Twice a value in [0, 1] is a value in [0, 2]. -/
theorem fmul_two_bounds {a : F32} (hf : finite a = true) (h0 : 0 ≤ ratOf a) (h1 : ratOf a ≤ 1) :
    finite (fmul f2 a) = true ∧ 0 ≤ ratOf (fmul f2 a) ∧ ratOf (fmul f2 a) ≤ 2 := by
  rw [← ratOf_f0, ← ratOf_f2]
  exact fmul_between finite_f2 hf finite_f0 finite_f2 (by rw [ratOf_f0, ratOf_f2]; linarith)
    (by rw [ratOf_f2]; linarith)

theorem inUnitRange_sawN {t : F32} (ht : legalPhase t = true) : InUnitRange (sawN t) := by
  obtain ⟨hf, hs, h1⟩ := legalPhase_iff.1 ht
  obtain ⟨hf', h0', h2'⟩ := fmul_two_bounds hf (ratOf_nonneg_of_signBit hs) h1.le
  exact inUnitRange_fsub_one hf' h0' h2'

/-- The triangle is the naive saw's magnitude, doubled and moved down by 1. -/
theorem inUnitRange_tri {t : F32} (ht : legalPhase t = true) : InUnitRange (tri t) := by
  obtain ⟨hf, hlow, hhigh⟩ := inUnitRange_sawN ht
  obtain ⟨hf', h0', h2'⟩ := fmul_two_bounds (a := fabs (sawN t)) (by rwa [finite_fabs])
    (by rw [ratOf_fabs]; exact abs_nonneg _) (by rw [ratOf_fabs]; exact abs_le.2 ⟨hlow, hhigh⟩)
  exact inUnitRange_fsub_one hf' h0' h2'

theorem pulseN_of_lt_half {t : F32} (hf : finite t = true) (h : ratOf t < 1 / 2) : pulseN t = f1 := by
  rw [← ratOf_fHalf] at h
  exact if_pos ((flt_iff hf finite_fHalf).2 h)

theorem pulseN_of_half_le {t : F32} (hf : finite t = true) (h : 1 / 2 ≤ ratOf t) : pulseN t = fNeg1 := by
  rw [← ratOf_fHalf] at h
  exact if_neg (by rw [Bool.not_eq_true]; exact (flt_eq_false_iff hf finite_fHalf).2 h)

theorem inUnitRange_pulseN (t : F32) : InUnitRange (pulseN t) := by
  unfold pulseN
  split
  · exact ⟨finite_f1, by norm_num, by norm_num⟩
  · exact ⟨finite_fNeg1, by norm_num, by norm_num⟩

/-- Settles O26. -/
theorem naiveWaveformsStayInRange : Obligations.NaiveWaveformsStayInRange := by
  unfold Obligations.NaiveWaveformsStayInRange
  intro t ht
  have hf := (legalPhase_iff.1 ht).1
  exact ⟨inUnitRange_tri ht, inUnitRange_sawN ht, pulseN_of_lt_half hf, pulseN_of_half_le hf⟩

/-! ### The residual (R105) -/

theorem blep_of_after {t dt : F32} (h : flt t dt = true) : blep t dt = blepAfter (fdiv t dt) := if_pos h

theorem blep_of_before {t dt : F32} (ha : flt t dt = false) (hb : fgt t (fsub f1 dt) = true) :
    blep t dt = blepBefore (fdiv (fsub t f1) dt) := by
  rw [blep, ha, hb]; rfl

theorem blep_of_outside {t dt : F32} (ha : flt t dt = false) (hb : fgt t (fsub f1 dt) = false) : blep t dt = f0 := by
  rw [blep, ha, hb]; rfl

section
variable {x : F32} (hf : finite x = true) (h0 : 0 ≤ ratOf x) (h1 : ratOf x ≤ 1)
include hf h0 h1

theorem fadd_self_bounds : finite (fadd x x) = true ∧ ratOf x ≤ ratOf (fadd x x) ∧ ratOf (fadd x x) ≤ 2 := by
  rw [← ratOf_f2]
  exact fadd_between hf hf hf finite_f2 (by linarith) (by rw [ratOf_f2]; linarith)

theorem fmul_self_bounds : finite (fmul x x) = true ∧ 0 ≤ ratOf (fmul x x) ∧ ratOf (fmul x x) ≤ ratOf x := by
  rw [← ratOf_f0]
  exact fmul_between hf hf finite_f0 hf (by rw [ratOf_f0]; exact mul_nonneg h0 h0) (mul_le_of_le_one_left h0 h1)

/-- `2x - x^2` is a value in [0, 2], because the rounded square is no larger than `x`. -/
theorem inUnitRange_blepAfter : InUnitRange (blepAfter x) := by
  obtain ⟨hdf, hd1, hd2⟩ := fadd_self_bounds hf h0 h1
  obtain ⟨hqf, hq0, hqx⟩ := fmul_self_bounds hf h0 h1
  obtain ⟨hsf, hs0, hs2⟩ := fsub_between hdf hqf finite_f0 finite_f2 (by rw [ratOf_f0]; linarith)
    (by rw [ratOf_f2]; linarith)
  exact inUnitRange_fsub_one hsf (by rwa [ratOf_f0] at hs0) (by rwa [ratOf_f2] at hs2)

end

/-- `x^2 + x` is a value in [x, 0], because the rounded square is no larger than `-x`. -/
theorem inUnitRange_blepBefore {x : F32} (hf : finite x = true) (h0 : -1 ≤ ratOf x) (h1 : ratOf x ≤ 0) :
    InUnitRange (blepBefore x) := by
  have hn : finite (fneg x) = true := by rwa [finite_fneg]
  obtain ⟨hqf, hq0, hqx⟩ := fmul_between hf hf finite_f0 hn (by rw [ratOf_f0]; nlinarith)
    (by rw [ratOf_fneg]; nlinarith)
  rw [ratOf_f0] at hq0
  rw [ratOf_fneg] at hqx
  obtain ⟨hrf, hrx, hr0⟩ := fadd_between hqf hf hf finite_f0 (by linarith) (by rw [ratOf_f0]; linarith)
  rw [ratOf_f0] at hr0
  obtain ⟨hsf, hs2, hs0⟩ := fadd_between hrf hf (l := fneg f2) (by decide) finite_f0 (by rw [ratOf_fneg_f2]; linarith)
    (by rw [ratOf_f0]; linarith)
  exact inUnitRange_fadd_one hsf (by rwa [ratOf_fneg_f2] at hs2) (by rwa [ratOf_f0] at hs0)

section
variable {t dt : F32} (ht : legalPhase t = true) (hdt : legalIncrement dt = true)
include ht hdt

theorem flt_increment_iff : flt t dt = true ↔ ratOf t < ratOf dt :=
  flt_iff (legalPhase_iff.1 ht).1 (legalIncrement_iff.1 hdt).1

/-- Above the rounded `1 - dt` a phase is above the exact one too, being a binary32 value itself. -/
theorem lt_of_before_window (h : fgt t (fsub f1 dt) = true) : 1 - ratOf dt < ratOf t := by
  obtain ⟨hf, -, ht1⟩ := legalPhase_iff.1 ht
  obtain ⟨hdf, hd0, hd1⟩ := legalIncrement_iff.1 hdt
  by_contra hle
  rw [not_lt, ← ratOf_f1] at hle
  obtain ⟨hsf, hts, -⟩ := fsub_between finite_f1 hdf hf finite_f1 hle (by linarith)
  exact hts.not_gt ((flt_iff hsf hf).1 h)

theorem not_both_windows : ¬ (flt t dt = true ∧ fgt t (fsub f1 dt) = true) := by
  rintro ⟨ha, hb⟩
  have hafter := (flt_increment_iff ht hdt).1 ha
  have hbefore := lt_of_before_window ht hdt hb
  have := (legalIncrement_iff.1 hdt).2.2
  linarith

theorem increment_pos_of_window (h : flt t dt = true ∨ fgt t (fsub f1 dt) = true) : 0 < ratOf dt := by
  obtain ⟨-, hs, ht1⟩ := legalPhase_iff.1 ht
  rcases h with ha | hb
  · exact (ratOf_nonneg_of_signBit hs).trans_lt ((flt_increment_iff ht hdt).1 ha)
  · have := lt_of_before_window ht hdt hb
    linarith

/-- The position in the window after the wrap. -/
theorem fdiv_after_bounds (h : flt t dt = true) :
    finite (fdiv t dt) = true ∧ 0 ≤ ratOf (fdiv t dt) ∧ ratOf (fdiv t dt) ≤ 1 := by
  obtain ⟨hf, hs, -⟩ := legalPhase_iff.1 ht
  have hpos := increment_pos_of_window ht hdt (.inl h)
  have hlt := (flt_increment_iff ht hdt).1 h
  rw [← ratOf_f0, ← ratOf_f1]
  exact fdiv_between hf (legalIncrement_iff.1 hdt).1 hpos.ne' finite_f0 finite_f1
    (by rw [ratOf_f0]; exact div_nonneg (ratOf_nonneg_of_signBit hs) hpos.le)
    (by rw [ratOf_f1]; exact (div_le_one hpos).2 hlt.le)

/-- The position in the window before the wrap: `t - 1` is at least `-dt`, rounded too. -/
theorem fdiv_before_bounds (h : fgt t (fsub f1 dt) = true) :
    finite (fdiv (fsub t f1) dt) = true ∧ -1 ≤ ratOf (fdiv (fsub t f1) dt) ∧ ratOf (fdiv (fsub t f1) dt) ≤ 0 := by
  obtain ⟨hf, -, ht1⟩ := legalPhase_iff.1 ht
  have hdf := (legalIncrement_iff.1 hdt).1
  have hpos := increment_pos_of_window ht hdt (.inr h)
  have hlt := lt_of_before_window ht hdt h
  obtain ⟨hsf, hlow, hhigh⟩ := fsub_between hf finite_f1 (l := fneg dt) (by rwa [finite_fneg]) finite_f0
    (by rw [ratOf_fneg, ratOf_f1]; linarith) (by rw [ratOf_f0, ratOf_f1]; linarith)
  rw [ratOf_fneg] at hlow
  rw [ratOf_f0] at hhigh
  rw [← ratOf_fNeg1, ← ratOf_f0]
  exact fdiv_between hsf hdf hpos.ne' finite_fNeg1 finite_f0
    (by rw [ratOf_fNeg1, le_div_iff₀ hpos]; linarith)
    (by rw [ratOf_f0]; exact div_nonpos_of_nonpos_of_nonneg hhigh hpos.le)

theorem inUnitRange_blep : InUnitRange (blep t dt) := by
  cases ha : flt t dt
  · cases hb : fgt t (fsub f1 dt)
    · rw [blep_of_outside ha hb]
      exact ⟨finite_f0, by norm_num, by norm_num⟩
    · rw [blep_of_before ha hb]
      obtain ⟨hf, hlow, hhigh⟩ := fdiv_before_bounds ht hdt hb
      exact inUnitRange_blepBefore hf hlow hhigh
  · rw [blep_of_after ha]
    obtain ⟨hf, hlow, hhigh⟩ := fdiv_after_bounds ht hdt ha
    exact inUnitRange_blepAfter hf hlow hhigh

end

/-- At increment 0.0 neither window holds a phase. -/
theorem blep_increment_zero {t : F32} (ht : legalPhase t = true) : blep t f0 = f0 := by
  have hdt : legalIncrement f0 = true := by decide
  have hnone (h : flt t f0 = true ∨ fgt t (fsub f1 f0) = true) : False :=
    (increment_pos_of_window ht hdt h).ne' ratOf_f0
  exact blep_of_outside (Bool.eq_false_iff.2 fun h => hnone (.inl h)) (Bool.eq_false_iff.2 fun h => hnone (.inr h))

/-- At the wrap itself the residual is -1.0: its position in the window is 0.0. -/
theorem blep_phase_zero {dt : F32} (hdt : legalIncrement dt = true) (h : flt f0 dt = true) : blep f0 dt = fNeg1 := by
  have hpos := increment_pos_of_window (t := f0) (by decide) hdt (.inl h)
  rw [blep_of_after h, f0_fdiv (legalIncrement_iff.1 hdt).1 hpos]
  decide

/-- Settles O27. -/
theorem blepResidual : Obligations.BlepResidual := by
  unfold Obligations.BlepResidual
  refine ⟨fun t ht => blep_increment_zero ht, fun dt hdt h => blep_phase_zero hdt h, fun t dt ht hdt => ?_⟩
  exact ⟨inUnitRange_blep ht hdt, not_both_windows ht hdt, blep_of_outside, increment_pos_of_window ht hdt⟩

/-! ### The half-period shift and the wrap (R107, R111) -/

/-- The half-period shift is a phase advance by 0.5. -/
theorem frac05_eq_advancePhase (t : F32) : frac05 t = advancePhase t fHalf := rfl

theorem legalPhase_frac05 {t : F32} (ht : legalPhase t = true) : legalPhase (frac05 t) = true :=
  legalPhase_advancePhase ht (by decide)

/-- Settles O28: the shift is a phase advance by 0.5, which gives a legal phase. -/
theorem halfPeriodShift : Obligations.HalfPeriodShift := by
  unfold Obligations.HalfPeriodShift
  refine ⟨frac05_eq_advancePhase, fun t ht => ?_, fun u hf h1 h2 => fsub_one_exact hf h1 (by linarith)⟩
  obtain ⟨hf, hs, hlt⟩ := legalPhase_iff.1 (legalPhase_frac05 ht)
  exact ⟨hf, ratOf_nonneg_of_signBit hs, hlt⟩

/-- Settles O30. -/
theorem phaseWrapIsExact : Obligations.PhaseWrapIsExact := by
  unfold Obligations.PhaseWrapIsExact
  intro t dt ht hdt p
  obtain ⟨hf, hs, hle⟩ := fadd_phase_bounds ht hdt
  refine ⟨⟨hf, ratOf_nonneg_of_signBit hs, hle⟩, fun hwrap => ?_, legalPhase_advancePhase ht hdt⟩
  rw [fge, fle_iff finite_f1 hf, ratOf_f1] at hwrap
  obtain ⟨hwf, hexact⟩ := fsub_one_exact hf hwrap (by linarith)
  exact ⟨hwf, hexact, by rw [hexact]; linarith⟩

/-! ### The corrected waveforms are finite (R106, R108) -/

section
variable {t dt : F32} (ht : legalPhase t = true) (hdt : legalIncrement dt = true)
include ht hdt

theorem finite_saw : finite (saw t dt) = true := by
  obtain ⟨hnf, hn0, hn1⟩ := inUnitRange_sawN ht
  obtain ⟨hbf, hb0, hb1⟩ := inUnitRange_blep ht hdt
  exact (fsub_between hnf hbf (l := fneg f2) (by decide) finite_f2 (by rw [ratOf_fneg_f2]; linarith)
    (by rw [ratOf_f2]; linarith)).1

/-- The first residual leaves the pulse in [-2, 2], the second in [-3, 3]. -/
theorem finite_pulse : finite (pulse t dt) = true := by
  obtain ⟨hpf, hp0, hp1⟩ := inUnitRange_pulseN t
  obtain ⟨hbf, hb0, hb1⟩ := inUnitRange_blep ht hdt
  obtain ⟨hcf, hc0, hc1⟩ := inUnitRange_blep (legalPhase_frac05 ht) hdt
  obtain ⟨hsf, hs0, hs2⟩ := fadd_between hpf hbf (l := fneg f2) (by decide) finite_f2 (by rw [ratOf_fneg_f2]; linarith)
    (by rw [ratOf_f2]; linarith)
  rw [ratOf_fneg_f2] at hs0
  rw [ratOf_f2] at hs2
  have hbound : |ratOf (fadd (pulseN t) (blep t dt)) - ratOf (blep (frac05 t) dt)| ≤ 3 :=
    abs_le.2 ⟨by linarith, by linarith⟩
  exact ((fsub_correctlyRounded hsf hcf).1 (hbound.trans_lt (by norm_num))).1

end

/-- Every waveform is finite where the sine is. -/
theorem finite_wave {sin : F32 → F32} (hsin : ∀ t, legalPhase t = true → finite (sin t) = true) {t dt : F32}
    (ht : legalPhase t = true) (hdt : legalIncrement dt = true) (w : BitVec 2) : finite (wave sin w t dt) = true := by
  unfold wave
  split_ifs
  · exact hsin t ht
  · exact (inUnitRange_tri ht).1
  · exact finite_saw ht hdt
  · exact finite_pulse ht hdt

/-! ### The saw near the wrap (R112) -/

theorem ratOf_sixteenth : ratOf 0x3D800000#32 = 1 / 16 := by
  rw [ratOf, show exactUnits 0x3D800000#32 = 2 ^ 145 by decide]; norm_num

theorem ratOf_fifteenSixteenths : ratOf 0x3F700000#32 = 15 / 16 := by
  rw [ratOf, show exactUnits 0x3F700000#32 = 15 * 2 ^ 145 by decide]; norm_num

/-- In the first half of the window after the wrap the residual is at most -1/16: `2x` is at most 1/2, or the rounded
square is at least 1/16. -/
theorem blepAfter_le {x : F32} (hf : finite x = true) (h0 : 0 ≤ ratOf x) (h1 : ratOf x ≤ 1 / 2) :
    ratOf (blepAfter x) ≤ -1 / 16 := by
  obtain ⟨hdf, hdx, -⟩ := fadd_self_bounds hf h0 (by linarith)
  obtain ⟨hqf, hq0, hqx⟩ := fmul_self_bounds hf h0 (by linarith)
  have hdiff : ratOf (fadd x x) - ratOf (fmul x x) ≤ 15 / 16 := by
    rcases le_total (ratOf x) (1 / 4) with hsmall | hlarge
    · have := (fadd_between hf hf finite_f0 finite_fHalf (by rw [ratOf_f0]; linarith)
        (by rw [ratOf_fHalf]; linarith)).2.2
      rw [ratOf_fHalf] at this
      linarith
    · have hd := (fadd_between hf hf finite_f0 finite_f1 (by rw [ratOf_f0]; linarith)
        (by rw [ratOf_f1]; linarith)).2.2
      have hq := (fmul_between hf hf (l := 0x3D800000#32) (by decide) finite_f1
        (by rw [ratOf_sixteenth]; nlinarith) (by rw [ratOf_f1]; nlinarith)).2.1
      rw [ratOf_f1] at hd
      rw [ratOf_sixteenth] at hq
      linarith
  obtain ⟨hsf, hs0, hsv⟩ := fsub_between hdf hqf finite_f0 (u := 0x3F700000#32) (by decide)
    (by rw [ratOf_f0]; linarith) (by rwa [ratOf_fifteenSixteenths])
  rw [ratOf_f0] at hs0
  rw [ratOf_fifteenSixteenths] at hsv
  have hneg : ratOf (fneg 0x3D800000#32) = -1 / 16 := by rw [ratOf_fneg, ratOf_sixteenth]; norm_num
  rw [← hneg]
  exact (fsub_between hsf finite_f1 finite_fNeg1 (by decide) (by rw [ratOf_fNeg1, ratOf_f1]; linarith)
    (by rw [hneg, ratOf_f1]; linarith)).2.2

/-- Subtracting a residual of at most -1/16 moves a sample up, at least to the next multiple of 1/16. -/
theorem lt_fsub_of_le {a r : F32} (ha : InUnitRange a) (hr : InUnitRange r) (h : ratOf r ≤ -1 / 16) :
    ratOf a < ratOf (fsub a r) := by
  obtain ⟨haf, ha0, ha1⟩ := ha
  obtain ⟨hrf, hr0, -⟩ := hr
  have hfloor := Int.floor_le (16 * ratOf a)
  have hceil := Int.lt_floor_add_one (16 * ratOf a)
  have hlow : -16 ≤ ⌊16 * ratOf a⌋ := Int.le_floor.2 (by push_cast; linarith)
  have hhigh : ⌊16 * ratOf a⌋ ≤ 16 := by
    exact_mod_cast hfloor.trans (show 16 * ratOf a ≤ ((16 : Int) : ℚ) by push_cast; linarith)
  obtain ⟨v, hvf, hv⟩ := exists_ratOf_eq_dyadic (j := ⌊16 * ratOf a⌋ + 1) (e := 4) (by omega) (by norm_num)
  push_cast at hv
  calc ratOf a < ratOf v := by rw [hv]; linarith
    _ ≤ ratOf (fsub a r) := (fsub_between haf hrf hvf finite_f2 (by rw [hv]; linarith) (by rw [ratOf_f2]; linarith)).2.1

/-- Settles O31: just after the wrap the saw is above the naive saw, and outside the windows the residual is +0.0. -/
theorem sawDiffersNearTheWrap : Obligations.SawDiffersNearTheWrap := by
  unfold Obligations.SawDiffersNearTheWrap
  intro t dt ht hdt
  have hnaive := inUnitRange_sawN ht
  refine ⟨fun ha hx => ?_, fun ha hb => ?_⟩
  · obtain ⟨hxf, hx0, -⟩ := fdiv_after_bounds ht hdt ha
    rw [fle_iff hxf finite_fHalf, ratOf_fHalf] at hx
    have hres : ratOf (blep t dt) ≤ -1 / 16 := by
      rw [blep_of_after ha]
      exact blepAfter_le hxf hx0 hx
    have hlt := lt_fsub_of_le hnaive (inUnitRange_blep ht hdt) hres
    rw [Bool.eq_false_iff, ne_eq, feq_iff (finite_saw ht hdt) hnaive.1]
    exact hlt.ne'
  · rw [saw, blep_of_outside ha hb, fsub_f0 hnaive.1]

end Sys2Proof.Machine
end

section
/-! PROOFS. The commands of the basic oscillator (spec/40_basic_oscillator.md R109, R110, R113 to R117), and what
configuration and the two PROCs leave alone (R114, R153, R156). -/

namespace Sys2Proof

/-- A command word written as its fields, shifted into place. -/
theorem or_shiftLeft_eq_commandWord (op imm : BitVec 8) :
    op.setWidth 32 ||| imm.setWidth 32 <<< 8 = commandWord op imm := by
  have hop := op.isLt
  have himm := imm.isLt
  apply BitVec.eq_of_toNat_eq
  rw [commandWord_toNat, BitVec.toNat_or, BitVec.toNat_shiftLeft, BitVec.toNat_setWidth, BitVec.toNat_setWidth,
    Nat.mod_eq_of_lt (by omega), Nat.mod_eq_of_lt (a := imm.toNat) (by omega), Nat.shiftLeft_eq,
    Nat.mod_eq_of_lt (by omega), Nat.or_comm, ← Nat.shiftLeft_eq, ← Nat.shiftLeft_add_eq_or_of_lt hop]

end Sys2Proof

namespace Sys2Proof.Machine

theorem or_raised (status : Word) (b : Bool) (c : Condition) :
    status ||| raised b c = if b then status ||| c.statusBit else status := by
  cases b
  · exact BitVec.or_zero
  · rfl

theorem or_raised_not (status : Word) (b : Bool) (c : Condition) :
    status ||| raised (!b) c = if b then status else status ||| c.statusBit := by
  cases b
  · rfl
  · exact BitVec.or_zero

/-! ### The two PROCs at any evaluator -/

theorem exec_oscProc (s : State) : exec .oscProc s = .next (oscProcess Config.sin2pi s) := rfl

section
variable (sin : F32 → F32) (s : State)

@[simp] theorem oscProcess_oscPhase : (oscProcess sin s).oscPhase = advancePhase s.oscPhase s.oscInc := rfl

@[simp] theorem oscProcess_oscOut :
    (oscProcess sin s).oscOut = guardOutput (wave sin s.oscWave s.oscPhase s.oscInc) := rfl

@[simp] theorem oscProcess_respPort :
    (oscProcess sin s).respPort = some (guardOutput (wave sin s.oscWave s.oscPhase s.oscInc)) := rfl

@[simp] theorem oscProcess_status : (oscProcess sin s).status =
    if finite (wave sin s.oscWave s.oscPhase s.oscInc) then s.status else s.status ||| nanBit := by
  rw [oscProcess, detectIf_eq_raised]
  exact or_raised_not _ _ .nonFiniteOutput

@[simp] theorem subProcess_subPhase : (subProcess sin s).subPhase = advancePhase s.subPhase s.subInc := rfl

@[simp] theorem subProcess_subOut : (subProcess sin s).subOut = guardOutput (sin s.subPhase) := rfl

@[simp] theorem subProcess_status : (subProcess sin s).status =
    if finite (sin s.subPhase) then s.status else s.status ||| nanBit := by
  rw [subProcess, detectIf_eq_raised]
  exact or_raised_not _ _ .nonFiniteOutput

end

/-! ### The output guard (R109) -/

theorem guardOutput_of_finite {y : F32} (h : finite y = true) : guardOutput y = y := if_pos h

theorem guardOutput_of_not_finite {y : F32} (h : finite y = false) : guardOutput y = f0 := by
  rw [guardOutput, h, if_neg Bool.false_ne_true]

/-- Settles O29: on legal registers every waveform is finite, so neither PROC records a condition. -/
theorem guardNeverFires : Obligations.GuardNeverFires := by
  unfold Obligations.GuardNeverFires
  refine ⟨fun sin s h => ?_, fun sin hsin t ht => (hsin t (legalPhase_iff.1 ht).1).1, fun sin s hsin hs => ?_⟩
  · have hguard := guardOutput_of_not_finite h
    refine ⟨hguard, congrArg some hguard, ?_⟩
    rw [State.nan, oscProcess_status, h, if_neg Bool.false_ne_true, BitVec.getLsbD_or,
      show nanBit.getLsbD 2 = true by decide, Bool.or_true]
  · rw [State.legal_iff] at hs
    have hwave := finite_wave hsin hs.oscPhase hs.oscInc s.oscWave
    exact ⟨hwave, by rw [oscProcess_status, if_pos hwave],
      by rw [subProcess_status, if_pos (hsin s.subPhase hs.subPhase)]⟩

/-! ### OSC.PROC (R110) -/

/-- Settles O10. -/
theorem oscProcResult : Obligations.OscProcResult := by
  unfold Obligations.OscProcResult
  refine ⟨decode_encode_cw .oscProc, fun s => ?_⟩
  simp only [exec_eq_nextState, nextState, or_raised_not]
  rfl

theorem advancePhase_increment_zero {t : F32} (ht : legalPhase t = true) : advancePhase t f0 = t := by
  obtain ⟨hf, hs, hlt⟩ := legalPhase_iff.1 ht
  have hwrap : fge t f1 = false := by
    rw [fge, fle_eq_false_iff finite_f1 hf, ratOf_f1]
    exact hlt
  rw [advancePhase, fadd_f0 hf hs, hwrap, if_neg Bool.false_ne_true]

theorem advancePhase_of_sum_one {t dt : F32} (h : fadd t dt = f1) : advancePhase t dt = f0 := by
  rw [advancePhase, h]
  decide

/-- At increment 0.5 saw and pulse are 0.0 at both phases that alternate. -/
theorem wave_at_half_increment (sin : F32 → F32) {w : BitVec 2} {t : F32} (hw : w = 2#2 ∨ w = 3#2)
    (ht : t = f0 ∨ t = fHalf) : wave sin w t fHalf = f0 := by
  have hsaw : saw f0 fHalf = f0 ∧ saw fHalf fHalf = f0 := by decide
  have hpulse : pulse f0 fHalf = f0 ∧ pulse fHalf fHalf = f0 := by decide
  rcases hw with rfl | rfl <;> rcases ht with rfl | rfl
  · exact (wave_two sin _ _).trans hsaw.1
  · exact (wave_two sin _ _).trans hsaw.2
  · exact (wave_three sin _ _).trans hpulse.1
  · exact (wave_three sin _ _).trans hpulse.2

theorem oscProcess_respPort_of_wave_zero {sin : F32 → F32} {s : State}
    (h : wave sin s.oscWave s.oscPhase s.oscInc = f0) : (oscProcess sin s).respPort = some 0x00000000#32 := by
  rw [oscProcess_respPort, h, guardOutput_of_finite finite_f0]
  rfl

/-- Settles O11. -/
theorem oscProcCornerCases : Obligations.OscProcCornerCases := by
  unfold Obligations.OscProcCornerCases
  refine ⟨fun s ht hdt => ⟨_, exec_oscProc s, ?_⟩, fun s ht hdt => ⟨_, exec_oscProc s, ?_, fun hw => ?_⟩,
    fun s ht hdt => ⟨_, exec_oscProc s, ?_, fun hw => ?_⟩, fun s hsum => ⟨_, exec_oscProc s, ?_⟩,
    fun sin s hsin hw ht => ?_⟩
  · rw [oscProcess_oscPhase, hdt, advancePhase_increment_zero ht]
  · rw [oscProcess_oscPhase, ht, hdt]
    decide
  · exact oscProcess_respPort_of_wave_zero (by rw [hdt, wave_at_half_increment _ hw (.inl ht)])
  · rw [oscProcess_oscPhase, ht, hdt]
    decide
  · exact oscProcess_respPort_of_wave_zero (by rw [hdt, wave_at_half_increment _ hw (.inr ht)])
  · exact advancePhase_of_sum_one hsum
  · obtain ⟨-, -, hhalf, -⟩ := referenceSineAtQuarters.2 sin hsin
    exact oscProcess_respPort_of_wave_zero (by rw [hw, ht, wave_zero]; exact hhalf)

/-! ### OSC.RST (R115) -/

/-- At phase 0.0 the residual cancels the naive saw. -/
theorem saw_phase_zero {dt : F32} (hdt : legalIncrement dt = true) (h : flt f0 dt = true) : saw f0 dt = f0 := by
  rw [saw, blep_phase_zero hdt h]
  decide

/-- Settles O12. -/
theorem oscRstResult : Obligations.OscRstResult := by
  unfold Obligations.OscRstResult
  refine ⟨decode_encode_cw .oscRst, exec_eq_nextState .oscRst, fun s t hexec => ?_, fun s hw hdt hpos => ?_⟩
  · obtain rfl := exec_eq_next_iff.1 hexec
    exact ⟨rfl, rfl, rfl, rfl⟩
  · refine ⟨_, _, exec_eq_nextState .oscRst s, exec_oscProc _, oscProcess_respPort_of_wave_zero ?_⟩
    simp only [nextState]
    rw [hw, wave_two, saw_phase_zero hdt hpos]

/-! ### OSC.WAVE (R116) -/

theorem clampWave_of_le {imm : BitVec 8} (h : imm.toNat ≤ 3) : clampWave imm = imm.setWidth 2 := by
  rw [clampWave, immediate_eq, if_neg (by omega), BitVec.ofNat_toNat]

theorem clampWave_of_lt {imm : BitVec 8} (h : 3 < imm.toNat) : clampWave imm = 3#2 := by
  rw [clampWave, immediate_eq, if_pos h]

theorem waveOutOfRange_eq (imm : BitVec 8) : waveOutOfRange imm = decide (3 < imm.toNat) := by
  rw [waveOutOfRange, immediate_eq]

/-- Settles O13. -/
theorem oscWaveResult : Obligations.OscWaveResult := by
  unfold Obligations.OscWaveResult
  refine ⟨fun imm dw => ?_, fun imm s h => ?_, fun imm s h => ?_⟩
  · have hcw : 0x00000003#32 ||| imm.setWidth 32 <<< 8 = commandWord 0x03#8 imm := or_shiftLeft_eq_commandWord 0x03#8 imm
    rw [hcw]
    exact decode_encode_cw (.oscWave imm) dw
  · rw [exec_eq_nextState, nextState, clampWave_of_le h, or_raised, waveOutOfRange_eq,
      if_neg (by simpa using h)]
  · rw [exec_eq_nextState, nextState, clampWave_of_lt h, or_raised, waveOutOfRange_eq, if_pos (by simpa using h)]
    rfl

/-! ### OSC.FREQ (R117) -/

/-- A positive frequency is stored as it is. -/
theorem sanitiseHertz_of_pos {x : F32} (hf : finite x = true) (h : 0 < ratOf x) : sanitiseHertz x = x := by
  have hneg : flt x f0 = false := by
    rw [flt_eq_false_iff hf finite_f0, ratOf_f0]
    exact h.le
  have hzero : ¬ feq x f0 = true := by
    rw [feq_iff hf finite_f0, ratOf_f0]
    exact h.ne'
  rw [sanitiseHertz, hf, hneg, if_neg (by decide), if_neg hzero]

/-- A frequency above the Nyquist limit gets the largest increment. -/
theorem increment_of_overNyquist {hz sr : F32} (hs : legalRate sr = true) (h : overNyquist hz sr = true) :
    increment hz sr = fHalf := by
  have hclamp : clampHertz hz sr = nyquist sr := if_pos h
  rw [increment, hclamp, fdiv_nyquist hs]

theorem recompute_cfg_of_overNyquist {s : State} (h : overNyquist s.oscFreq s.sr = true) :
    (recompute s).cfg = true := by
  rw [recompute_eq, State.cfg, h, Bool.true_or, if_pos rfl, BitVec.getLsbD_or, show cfgBit.getLsbD 0 = true by decide,
    Bool.or_true]

/-- A frequency above SR/2 is kept and its increment clamped, with STATUS.CFG. -/
theorem oscFreq_above_nyquist {x : F32} {s : State} (hs : legalRate s.sr = true) (hf : finite x = true)
    (h : overNyquist x s.sr = true) :
    ∃ t, exec (.oscFreq x) s = .next t ∧ t.oscFreq = x ∧ t.oscInc = fHalf ∧ t.cfg = true := by
  obtain ⟨hnf, hnyquist⟩ := nyquist_exact hs
  have hlt : ratOf (nyquist s.sr) < ratOf x := (flt_iff hnf hf).1 h
  have hpos : 0 < ratOf x := by
    rw [hnyquist] at hlt
    exact (half_pos (ratOf_pos_of_legalRate hs)).trans hlt
  refine ⟨_, exec_eq_nextState _ s, ?_⟩
  rw [nextState, sanitiseHertz_of_pos hf hpos]
  exact ⟨recompute_oscFreq _, (recompute_oscInc _).trans (increment_of_overNyquist hs h),
    recompute_cfg_of_overNyquist h⟩

/-- Settles O14: the recompute finds SUB_INC as the last one left it. -/
theorem oscFreqResult : Obligations.OscFreqResult := by
  unfold Obligations.OscFreqResult
  refine ⟨fun dw => decode_encode_cw (.oscFreq dw) dw, fun x s => ?_, fun x s hs hderived => ?_,
    fun x s hs hf h => oscFreq_above_nyquist hs hf h, fun s hs => ?_⟩
  · rw [exec_eq_nextState, nextState, or_raised]
    rfl
  · rw [State.legal_iff] at hs
    exact ⟨_, exec_eq_nextState _ s, (recompute_subInc _).trans (hs.incrementsDerived_iff.1 hderived).2.symm⟩
  · exact oscFreq_above_nyquist (by rw [hs]; decide) (by decide) (by rw [hs]; decide)

/-! ### The increment as a quotient (R113) -/

theorem ratOf_clampHertz {hz sr : F32} (hh : legalHertz hz = true) (hs : legalRate sr = true) :
    ratOf (clampHertz hz sr) = min (ratOf hz) (ratOf sr / 2) := by
  obtain ⟨hnf, hnyquist⟩ := nyquist_exact hs
  rw [clampHertz_eq_fmin hh hs, ← nyquist_eq, ← hnyquist, fmin]
  split
  · next h => exact (min_eq_left ((fle_iff (legalHertz_iff.1 hh).1 hnf).1 h)).symm
  · next h =>
    rw [Bool.not_eq_true, fle_eq_false_iff (legalHertz_iff.1 hh).1 hnf] at h
    exact (min_eq_right h.le).symm

/-- Settles O32: the division is correctly rounded, and the quotient is at most 0.5, far below overflow. -/
theorem incrementIsNearestQuotient : Obligations.IncrementIsNearestQuotient := by
  unfold Obligations.IncrementIsNearestQuotient
  intro hz sr hh hs
  have hclamp := legalHertz_clampHertz hh hs
  have hpos := ratOf_pos_of_legalRate hs
  rw [← ratOf_clampHertz hh hs]
  refine (fdiv_correctlyRounded (legalHertz_iff.1 hclamp).1 (legalRate_iff.1 hs).1 hpos.ne').1 ?_
  rw [abs_of_nonneg (div_nonneg (ratOf_nonneg_of_legalHertz hclamp) hpos.le)]
  calc ratOf (clampHertz hz sr) / ratOf sr ≤ 1 / 2 := by
        rw [div_le_iff₀ hpos, ratOf_clampHertz hh hs]
        exact (min_le_right _ _).trans_eq (by ring)
    _ < 2 ^ 128 - 2 ^ 103 := by norm_num

/-! ### Configuration and the two units (R114, R153, R156) -/

/-- A configuration command: it writes OSC_WAVE, OSC_FREQ, SR, SUB_OCT or SUB_CARRIER. -/
def Configures (i : Instr) : Prop :=
  (∃ imm, i = .oscWave imm) ∨ (∃ x, i = .oscFreq x) ∨ (∃ x, i = .setsr x) ∨ (∃ imm, i = .subOct imm) ∨
    ∃ x, i = .subCar x

theorem nextState_phases_of_configures {i : Instr} (hi : Configures i) (s : State) :
    (nextState i s).oscPhase = s.oscPhase ∧ (nextState i s).subPhase = s.subPhase := by
  rcases hi with ⟨imm, rfl⟩ | ⟨x, rfl⟩ | ⟨x, rfl⟩ | ⟨imm, rfl⟩ | ⟨x, rfl⟩
  · exact ⟨rfl, rfl⟩
  · exact ⟨recompute_oscPhase _, recompute_subPhase _⟩
  · cases hx : rateOutOfRange x
    · rw [nextState_setsr_stored hx]
      exact ⟨recompute_oscPhase _, recompute_subPhase _⟩
    · rw [nextState_setsr_ignored hx]
      exact ⟨rfl, rfl⟩
  · exact ⟨recompute_oscPhase _, recompute_subPhase _⟩
  · exact ⟨recompute_oscPhase _, recompute_subPhase _⟩

/-- Settles O45: the next PROC finds the old phase and the new waveform and increment. -/
theorem configurationNeverMovesPhases : Obligations.ConfigurationNeverMovesPhases := by
  unfold Obligations.ConfigurationNeverMovesPhases
  intro i s hi
  obtain ⟨hosc, hsub⟩ := nextState_phases_of_configures hi s
  refine ⟨_, exec_eq_nextState i s, hosc, hsub, fun sin => ?_⟩
  rw [oscProcess_oscOut, oscProcess_oscPhase, subProcess_subOut, subProcess_subPhase, hosc, hsub]
  exact ⟨rfl, rfl, rfl, rfl⟩

/-- Settles O53: the state each PROC leaves takes the other unit's registers over and computes nothing from them. -/
theorem unitsAreIndependent : Obligations.UnitsAreIndependent := by
  unfold Obligations.UnitsAreIndependent
  refine ⟨fun s r t hexec => ?_, fun s r t hexec => ?_⟩
  · obtain rfl := exec_eq_next_iff.1 hexec
    exact ⟨rfl, rfl, rfl, rfl, rfl, _, exec_eq_nextState _ _, rfl, rfl, rfl, rfl⟩
  · obtain rfl := exec_eq_next_iff.1 hexec
    exact ⟨rfl, rfl, rfl, rfl, rfl, _, exec_eq_nextState _ _, rfl, rfl, rfl, rfl⟩

end Sys2Proof.Machine
end

section
/-! PROOFS. The commands of the sub-oscillator (spec/41_sub_oscillator.md R150, R151, R155, R157, R158). -/

namespace Sys2Proof.Machine

/-! ### The reference sine off the quarters (R7) -/

theorem orderKey_lt_iff {a b : F32} : orderKey a < orderKey b ↔ ratOf a < ratOf b :=
  lt_iff_lt_of_le_iff_le orderKey_le_iff

/-- Only one pattern is nearest to a real strictly between the midpoints to its two neighbours. -/
theorem IsNearestReal.eq_of_between_midpoints {r : ℝ} {lo v hi w : F32} (h : IsNearestReal r w)
    (hv : finite v = true) (hz : mag v ≠ 0) (hlo : orderKey lo + 1 = orderKey v) (hhi : orderKey v + 1 = orderKey hi)
    (hlow : (ratOf lo + ratOf v : ℝ) < 2 * r) (hhigh : 2 * r < (ratOf v + ratOf hi : ℝ)) : w = v := by
  obtain ⟨-, -, hnear⟩ := h
  have hnot : ¬ |(ratOf v : ℝ) - r| < |(ratOf w : ℝ) - r| := (hnear v hv).1.not_gt
  -- a pattern below or above `v` lies at or beyond its neighbour there, farther from `r` than `v`
  rcases lt_trichotomy (orderKey w) (orderKey v) with hlt | heq | hgt
  · have hlov : (ratOf lo : ℝ) < ratOf v := by exact_mod_cast orderKey_lt_iff.1 (by omega)
    have hwlo : (ratOf w : ℝ) ≤ ratOf lo := by exact_mod_cast orderKey_le_iff.1 (by omega)
    refine absurd ?_ hnot
    calc |(ratOf v : ℝ) - r| < r - ratOf lo := abs_lt.2 ⟨by linarith, by linarith⟩
      _ ≤ -(ratOf w - r) := by linarith
      _ ≤ |(ratOf w : ℝ) - r| := neg_le_abs _
  · exact (eq_or_zeros_of_ratOf_eq (ratOf_eq_of_orderKey heq)).resolve_right fun hzero => hz hzero.2
  · have hvhi : (ratOf v : ℝ) < ratOf hi := by exact_mod_cast orderKey_lt_iff.1 (by omega)
    have hhiw : (ratOf hi : ℝ) ≤ ratOf w := by exact_mod_cast orderKey_le_iff.1 (by omega)
    refine absurd ?_ hnot
    calc |(ratOf v : ℝ) - r| < ratOf hi - r := abs_lt.2 ⟨by linarith, by linarith⟩
      _ ≤ ratOf w - r := by linarith
      _ ≤ |(ratOf w : ℝ) - r| := le_abs_self _

/-- The binary32 value nearest to sqrt(2)/2. -/
theorem IsNearestReal.eq_half_sqrt_two {w : F32} (h : IsNearestReal (√2 / 2) w) : w = 0x3F3504F3#32 := by
  have hval : ratOf 0x3F3504F3#32 = 11863283 / 2 ^ 24 := by
    rw [ratOf, show exactUnits 0x3F3504F3#32 = 11863283 * 2 ^ 125 by decide]; norm_num
  have hlo : ratOf 0x3F3504F2#32 = 11863282 / 2 ^ 24 := by
    rw [ratOf, show exactUnits 0x3F3504F2#32 = 11863282 * 2 ^ 125 by decide]; norm_num
  have hhi : ratOf 0x3F3504F4#32 = 11863284 / 2 ^ 24 := by
    rw [ratOf, show exactUnits 0x3F3504F4#32 = 11863284 * 2 ^ 125 by decide]; norm_num
  have hbelow : (23726565 / 2 ^ 24 : ℝ) < √2 := Real.lt_sqrt_of_sq_lt (by norm_num)
  have habove : √2 < (23726567 / 2 ^ 24 : ℝ) := (Real.sqrt_lt' (by norm_num)).2 (by norm_num)
  refine h.eq_of_between_midpoints (lo := 0x3F3504F2#32) (hi := 0x3F3504F4#32) (by decide) (by decide) (by decide)
    (by decide) ?_ ?_
  · rw [hlo, hval]; push_cast; linarith
  · rw [hval, hhi]; push_cast; linarith

/-- The reference sine at 1/8 and 3/8 of a period. -/
theorem Sin2PiRef.eighths {sin : F32 → F32} (h : Sin2PiRef sin) :
    sin 0x3E000000#32 = 0x3F3504F3#32 ∧ sin 0x3EC00000#32 = 0x3F3504F3#32 := by
  have heighth : ratOf 0x3E000000#32 = 1 / 8 := by
    rw [ratOf, show exactUnits 0x3E000000#32 = 2 ^ 146 by decide]; norm_num
  have hthree : ratOf 0x3EC00000#32 = 3 / 8 := by
    rw [ratOf, show exactUnits 0x3EC00000#32 = 3 * 2 ^ 146 by decide]; norm_num
  have h1 := h 0x3E000000#32 (by decide)
  have h3 := h 0x3EC00000#32 (by decide)
  rw [Sin2PiRefAt, heighth] at h1
  rw [Sin2PiRefAt, hthree] at h3
  push_cast at h1 h3
  rw [show 2 * Real.pi * (1 / 8) = Real.pi / 4 by ring, Real.sin_pi_div_four] at h1
  rw [show 2 * Real.pi * (3 / 8) = Real.pi - Real.pi / 4 by ring, Real.sin_pi_sub, Real.sin_pi_div_four] at h3
  exact ⟨h1.eq_half_sqrt_two, h3.eq_half_sqrt_two⟩

/-! ### SUB.PROC (R150) -/

/-- Settles O15. -/
theorem subProcResult : Obligations.SubProcResult := by
  unfold Obligations.SubProcResult
  refine ⟨decode_encode_cw .subProc, fun s => ?_⟩
  simp only [exec_eq_nextState, nextState, or_raised_not]
  rfl

@[simp] theorem subProcess_subInc (sin : F32 → F32) (s : State) : (subProcess sin s).subInc = s.subInc :=
  State.detectIf_subInc _ _ _

/-- A finite sine is the response. -/
theorem subProcess_respPort_of_sine {sin : F32 → F32} {s : State} {y : F32} (h : sin s.subPhase = y)
    (hf : finite y = true) : (subProcess sin s).respPort = some y := by
  subst h
  exact congrArg some (guardOutput_of_finite hf)

/-- SUB.PROC from a known phase and increment. -/
theorem subProcess_from {sin : F32 → F32} {s : State} {t dt t' y : F32} (hphase : s.subPhase = t)
    (hinc : s.subInc = dt) (hsin : sin t = y) (hf : finite y = true) (hnext : advancePhase t dt = t') :
    (subProcess sin s).respPort = some y ∧ (subProcess sin s).subPhase = t' ∧ (subProcess sin s).subInc = dt :=
  ⟨subProcess_respPort_of_sine (by rw [hphase, hsin]) hf, by rw [subProcess_subPhase, hphase, hinc, hnext],
    by rw [subProcess_subInc, hinc]⟩

/-- Settles O16: the phases are 0, 1/8, 1/4 and 3/8, and the sine at the odd eighths is sqrt(2)/2. -/
theorem subProcReferenceExample : Obligations.SubProcReferenceExample := by
  unfold Obligations.SubProcReferenceExample
  intro sin s hsin hphase hinc
  obtain ⟨hzero, hquarter, -, -⟩ := referenceSineAtQuarters.2 sin hsin
  obtain ⟨heighth, hthree⟩ := hsin.eighths
  obtain ⟨hresp1, hphase1, hinc1⟩ := subProcess_from (t' := 0x3E000000#32) hphase hinc hzero (by decide) (by decide)
  obtain ⟨hresp2, hphase2, hinc2⟩ := subProcess_from (t' := fQuarter) hphase1 hinc1 heighth (by decide) (by decide)
  obtain ⟨hresp3, hphase3, hinc3⟩ :=
    subProcess_from (t' := 0x3EC00000#32) hphase2 hinc2 hquarter (by decide) (by decide)
  obtain ⟨hresp4, hphase4, -⟩ := subProcess_from (t' := fHalf) hphase3 hinc3 hthree (by decide) (by decide)
  exact ⟨hresp1, hresp2, hresp3, hresp4, hphase4⟩

/-! ### The sub frequency (R151) -/

theorem mag_ge_of_le_ratOf {x : F32} (h : 1 / 2 ^ 125 ≤ ratOf x) : 2 ^ 24 ≤ mag x := by
  have hval : ratOf 0x01000000#32 = 1 / 2 ^ 125 := by
    rw [ratOf, show exactUnits 0x01000000#32 = 2 ^ 24 by decide]; norm_num
  have hkey : orderKey 0x01000000#32 ≤ orderKey x := orderKey_le_iff.2 (by rwa [hval])
  rw [show orderKey 0x01000000#32 = 2 ^ 24 by decide, orderKey] at hkey
  split at hkey <;> omega

/-- A value that stays normal through `n` halvings has its `2 ^ n`-th part in binary32. -/
theorem exists_div_two_pow (n : Nat) {x : F32} (hx : finite x = true) (h : 2 ^ n / 2 ^ 126 ≤ ratOf x) :
    ∃ w, finite w = true ∧ ratOf w = ratOf x / 2 ^ n := by
  induction n generalizing x with
  | zero => exact ⟨x, hx, by rw [pow_zero, div_one]⟩
  | succ n ih =>
    have hnormal : 1 / 2 ^ 125 ≤ ratOf x := calc
      (1 / 2 ^ 125 : ℚ) ≤ 2 ^ n / 2 ^ 125 := by gcongr; exact one_le_pow₀ (by norm_num)
      _ = 2 ^ (n + 1) / 2 ^ 126 := by ring
      _ ≤ ratOf x := h
    obtain ⟨u, hu, heq⟩ := exists_half hx (mag_ge_of_le_ratOf hnormal)
    obtain ⟨w, hw, hwq⟩ := ih hu (by rw [heq]; rw [pow_succ] at h; linarith)
    exact ⟨w, hw, by rw [hwq, heq, pow_succ]; field_simp⟩

/-- Multiplying by `2 ^ -n` is exact where no halving on the way is subnormal. -/
theorem fmul_inv_two_pow_exact {n : Nat} {x k : F32} (hx : finite x = true) (hk : finite k = true)
    (hkn : ratOf k = 1 / 2 ^ n) (h : 2 ^ n / 2 ^ 126 ≤ ratOf x) :
    finite (fmul x k) = true ∧ ratOf (fmul x k) = ratOf x / 2 ^ n := by
  obtain ⟨w, hw, heq⟩ := exists_div_two_pow n hx h
  rw [← heq]
  exact fmul_exact hx hk hw (by rw [heq, hkn, mul_one_div])

/-- Settles O34: the factor is 2^-1 or 2^-2, and from 2^-124 on two halvings are exact. -/
theorem subFrequencyIsOctavesBelow : Obligations.SubFrequencyIsOctavesBelow := by
  unfold Obligations.SubFrequencyIsOctavesBelow
  intro carrier oct hcarrier hoct
  refine ⟨subHertz_eq_subHertzByOct carrier oct, fun hmin => ?_⟩
  have hf := (legalHertz_iff.1 hcarrier).1
  have hoct' : oct = 1#2 ∨ oct = 2#2 := by simpa [legalOct] using hoct
  rcases hoct' with rfl | rfl
  · exact fmul_inv_two_pow_exact (n := 1) (k := fHalf) hf finite_fHalf (by norm_num) (le_trans (by norm_num) hmin)
  · exact fmul_inv_two_pow_exact (n := 2) (k := fQuarter) hf finite_fQuarter (by norm_num) (le_trans (by norm_num) hmin)

/-! ### SUB.RST (R155) -/

/-- Settles O17: the next sample is the sine at phase 0. -/
theorem subRstResult : Obligations.SubRstResult := by
  unfold Obligations.SubRstResult
  refine ⟨decode_encode_cw .subRst, exec_eq_nextState .subRst, fun sin s hsin => ?_⟩
  obtain ⟨hzero, -, -, -⟩ := referenceSineAtQuarters.2 sin hsin
  exact ⟨_, exec_eq_nextState .subRst s, subProcess_respPort_of_sine hzero (by decide)⟩

/-! ### SUB.OCT (R157) -/

theorem clampOct_of_lt {imm : BitVec 8} (h : 2 < imm.toNat) : clampOct imm = 2#2 := by
  rw [clampOct, immediate_eq, if_neg (by omega), if_pos h]

theorem octOutOfRange_of_lt {imm : BitVec 8} (h : 2 < imm.toNat) : octOutOfRange imm = true := by
  rw [octOutOfRange, immediate_eq, decide_eq_true h, Bool.or_true]

/-- Settles O18. -/
theorem subOctResult : Obligations.SubOctResult := by
  unfold Obligations.SubOctResult
  refine ⟨fun imm dw => ?_, fun s => ?_, fun imm s himm => ?_, fun imm s h => ?_, fun s hsr hcarrier => ?_⟩
  · have hcw : 0x00000013#32 ||| imm.setWidth 32 <<< 8 = commandWord 0x13#8 imm :=
      or_shiftLeft_eq_commandWord 0x13#8 imm
    rw [hcw]
    exact decode_encode_cw (.subOct imm) dw
  · have hclamp : clampOct 0#8 = 1#2 := by decide
    have hrange : octOutOfRange 0#8 = true := by decide
    rw [exec_eq_nextState, nextState, hclamp, or_raised, hrange]
    rfl
  · have hin : clampOct imm = imm.setWidth 2 ∧ octOutOfRange imm = false := by
      rcases himm with rfl | rfl <;> decide
    rw [exec_eq_nextState, nextState, hin.1, or_raised, hin.2, if_neg Bool.false_ne_true]
  · rw [exec_eq_nextState, nextState, clampOct_of_lt h, or_raised, octOutOfRange_of_lt h]
    rfl
  · refine ⟨_, exec_eq_nextState _ s, (recompute_subInc _).trans ?_⟩
    dsimp only
    rw [hsr, hcarrier]
    decide

/-! ### SUB.CAR (R158) -/

/-- Settles O19: the recompute finds OSC_INC as the last one left it. -/
theorem subCarResult : Obligations.SubCarResult := by
  unfold Obligations.SubCarResult
  refine ⟨fun dw => decode_encode_cw (.subCar dw) dw, fun x s => ?_, fun x s hs hderived => ?_,
    fun s hsr hoct => ?_⟩
  · rw [exec_eq_nextState, nextState, or_raised]
    rfl
  · rw [State.legal_iff] at hs
    exact ⟨_, exec_eq_nextState _ s, (recompute_oscInc _).trans (hs.incrementsDerived_iff.1 hderived).1.symm⟩
  · have hstored : sanitiseHertz 0x43DC0000#32 = 0x43DC0000#32 := by decide
    refine ⟨_, exec_eq_nextState _ s, (recompute_subCarrier _).trans hstored, (recompute_subInc _).trans ?_⟩
    dsimp only
    rw [hsr, hoct, hstored]
    decide

end Sys2Proof.Machine
end

section
/-! PROOFS. The control commands: NOP, SETSR, READ and CLRST (spec/42_control.md R180 to R183). -/

namespace Sys2Proof

/-- A word with a form N or form D opcode in its low byte is legal only as the bare opcode (R71, R74). -/
theorem decode_isError_of_ne_opcode {cw : Word} {op : Nat} (hop : cw.toNat % 256 = op) (hne : cw.toNat ≠ op)
    (hform : op ∈ [0x00, 0x01, 0x02, 0x04, 0x11, 0x12, 0x14, 0x20, 0x22]) (dw : Word) :
    ∃ e, decode ⟨cw, dw⟩ = .error e := by
  rw [decode_isError_iff, hop]
  by_cases hrsv : cw.toNat / 65536 = 0
  · exact .inr (.inr ⟨hform, by omega⟩)
  · exact .inr (.inl hrsv)

end Sys2Proof

namespace Sys2Proof.Machine

/-! ### NOP (R180) -/

/-- Settles O9: the low byte of NOP is that of a form N opcode, so only the bare word is legal. -/
theorem nopResult : Obligations.NopResult := by
  unfold Obligations.NopResult
  refine ⟨decode_encode_cw .nop, fun cw dw hop hne => ?_, exec_eq_nextState .nop, assembleLine_mnemonic (by decide)⟩
  exact decode_isError_of_ne_opcode hop (fun h => hne (BitVec.eq_of_toNat_eq h)) (by decide) dw

/-! ### SETSR (R181) -/

theorem exec_setsr_ignored {x : F32} (h : finite x = false ∨ flt x f1 = true) (s : State) :
    exec (.setsr x) s = .next { s with status := s.status ||| cfgBit } := by
  have hrange : rateOutOfRange x = true := by simpa [rateOutOfRange] using h
  rw [exec_eq_nextState, nextState_setsr_ignored hrange]

theorem rateOutOfRange_eq_false {x : F32} (hf : finite x = true) (h1 : flt x f1 = false) :
    rateOutOfRange x = false := by
  rw [rateOutOfRange, hf, h1, Bool.not_true, Bool.or_self]

theorem exec_setsr_stored {x : F32} (h : rateOutOfRange x = false) (s : State) :
    exec (.setsr x) s = .next (recompute { s with sr := x }) := by
  rw [exec_eq_nextState, nextState_setsr_stored h]

/-- Settles O20: a rate that is stored is legal, so a frequency above its half gets the increment 0.5. -/
theorem setsrResult : Obligations.SetsrResult := by
  unfold Obligations.SetsrResult
  refine ⟨fun dw => decode_encode_cw (.setsr dw) dw, fun x s h => exec_setsr_ignored h s,
    fun x s hf h1 => exec_setsr_stored (rateOutOfRange_eq_false hf h1) s, fun x s hf h1 => ?_, fun s hfreq => ?_⟩
  · have hrange := rateOutOfRange_eq_false hf h1
    refine ⟨_, exec_setsr_stored hrange s, recompute_oscFreq _, recompute_subCarrier _, recompute_oscPhase _,
      recompute_subPhase _, fun hover => ⟨(recompute_oscInc _).trans ?_, recompute_cfg_of_overNyquist hover⟩⟩
    exact increment_of_overNyquist (legalRate_of_not_rateOutOfRange hrange) hover
  · refine ⟨_, exec_setsr_stored (by decide) s, recompute_sr _, (recompute_oscInc _).trans ?_⟩
    dsimp only
    rw [hfreq]
    decide

/-! ### READ (R182) -/

/-- The readable registers in index order, as READ responds with them (R20, R55). -/
def State.registers (s : State) : List Word :=
  [s.oscPhase, s.oscInc, s.oscFreq, s.oscWave.setWidth 32, s.oscOut, s.subPhase, s.subInc, s.subCarrier,
    s.subOct.setWidth 32, s.subOut, s.sr, s.status]

theorem readRegister_eq_getElem? (imm : BitVec 8) (s : State) : readRegister imm s = s.registers[imm.toNat]? := by
  unfold readRegister
  rw [immediate_eq]
  split
  case h_13 =>
    simp only [imp_false] at *
    exact (List.getElem?_eq_none (show 12 ≤ imm.toNat by omega)).symm
  all_goals
    rename_i hindex
    rw [hindex]
    rfl

theorem exec_read_of_register {imm : BitVec 8} {s : State} {v : Word} (h : readRegister imm s = some v) :
    exec (.read imm) s = .next { s with respPort := some v } := by
  rw [exec, execRead_eq, h]
  rfl

theorem exec_read_of_reserved {imm : BitVec 8} (h : 12 ≤ imm.toNat) (s : State) :
    exec (.read imm) s = .next { s with respPort := some 0x00000000#32, status := s.status ||| illBit } := by
  have hnone : readRegister imm s = none := by
    rw [readRegister_eq_getElem?]
    exact List.getElem?_eq_none h
  rw [exec, execRead_eq, hnone]
  rfl

/-- READ 11 responds with STATUS as it stood. -/
theorem exec_read_status (s : State) : exec (.read 11#8) s = .next { s with respPort := some s.status } :=
  exec_read_of_register (readRegister_eq_getElem? 11#8 s)

/-- A STATUS with bits 31:3 zero is a number below 8: it is its own three low bits. -/
theorem toNat_lt_of_legalStatus {v : Word} (h : legalStatus v = true) : v.toNat < 8 := by
  rw [legalStatus, beq_iff_eq] at h
  have hlow : v = v &&& 0x00000007#32 := calc
    v = v &&& (0x00000007#32 ||| 0xFFFFFFF8#32) := BitVec.and_allOnes.symm
    _ = v &&& 0x00000007#32 ||| v &&& 0xFFFFFFF8#32 := BitVec.and_or_distrib_left
    _ = v &&& 0x00000007#32 := by rw [h, BitVec.or_zero]
  rw [hlow, BitVec.toNat_and]
  exact Nat.lt_of_le_of_lt Nat.and_le_right (by decide)

/-- Settles O21: READ responds from the list of the registers, whose last is STATUS. -/
theorem readResult : Obligations.ReadResult := by
  unfold Obligations.ReadResult
  refine ⟨fun imm dw => ?_, fun s k v h => exec_read_of_register ?_, fun imm s h => exec_read_of_reserved h s,
    fun s hs => ?_, fun s hs => ?_⟩
  · have hcw : 0x00000021#32 ||| imm.setWidth 32 <<< 8 = commandWord 0x21#8 imm :=
      or_shiftLeft_eq_commandWord 0x21#8 imm
    rw [hcw]
    exact decode_encode_cw (.read imm) dw
  · have hk : k < 12 := (List.getElem?_eq_some_iff.1 h).1
    rw [readRegister_eq_getElem?, BitVec.toNat_ofNat, Nat.mod_eq_of_lt (by omega)]
    exact h
  · rw [State.legal_iff] at hs
    exact ⟨_, _, exec_read_status s, rfl, toNat_lt_of_legalStatus hs.status⟩
  · refine ⟨_, _, exec_eq_nextState _ s, exec_read_status _, ?_⟩
    dsimp only [nextState]
    rw [hs]
    rfl

/-! ### CLRST (R183) -/

/-- Settles O22: a CLRST word with IMM8 or RSV set is an illegal pair. -/
theorem clrstResult : Obligations.ClrstResult := by
  unfold Obligations.ClrstResult
  refine ⟨decode_encode_cw .clrst, exec_eq_nextState .clrst, fun c s rest hop hne hport => ?_⟩
  obtain ⟨e, hdec⟩ :=
    decode_isError_of_ne_opcode hop (fun h => hne (BitVec.eq_of_toNat_eq h)) (by decide) c.dw
  exact ⟨_, step_of_illegal hport hdec, rfl⟩

end Sys2Proof.Machine
end

section
/-! PROOFS. Exceptions: the block never stops (spec/60_exceptions.md R200), and a command sets exactly the STATUS bits
of the conditions it detects (R201, R203). -/

namespace Sys2Proof.Machine

/-! ### Nothing stops the block (R200) -/

/-- Settles O38: each of the steps answers, so any number of them does. -/
theorem blockNeverStops : Obligations.BlockNeverStops := by
  unfold Obligations.BlockNeverStops
  refine ⟨fun i s => ⟨_, exec_eq_nextState i s⟩, fun n s => ?_⟩
  obtain ⟨t, hrun, -⟩ := run_keeps (P := fun _ => True) (fun _ _ => trivial) n (s := s) trivial
  exact ⟨t, hrun⟩

/-! ### The conditions a command detects (R201) -/

/-- A recompute on these registers clamps at SR/2 (R27). -/
def recomputeClamps (s : State) : Bool :=
  overNyquist s.oscFreq s.sr || overNyquist (subHertz s.subCarrier s.subOct) s.sr

@[simp] theorem recomputeClamps_recompute (s : State) : recomputeClamps (recompute s) = recomputeClamps s := by
  simp [recomputeClamps]

theorem recomputeClamps_iff (s : State) : recomputeClamps s = true ↔
    fgt s.oscFreq (fmul fHalf s.sr) = true ∨ fgt (subHertz s.subCarrier s.subOct) (fmul fHalf s.sr) = true := by
  rw [recomputeClamps, Bool.or_eq_true, overNyquist, overNyquist, nyquist_eq]

/-- The command detects an out-of-range configuration: its own operand, or the recompute it ends with (R201). -/
def detectsConfigOutOfRange (s : State) : Instr → Bool
  | .oscWave imm => waveOutOfRange imm
  | .oscFreq x => hertzOutOfRange x || recomputeClamps (nextState (.oscFreq x) s)
  | .subOct imm => octOutOfRange imm || recomputeClamps (nextState (.subOct imm) s)
  | .subCar x => hertzOutOfRange x || recomputeClamps (nextState (.subCar x) s)
  | .setsr x => rateOutOfRange x || recomputeClamps (nextState (.setsr x) s)
  | _ => false

/-- The command detects a reserved register index (R201). -/
def detectsReservedIndex : Instr → Bool
  | .read imm => decide (12 ≤ imm.toNat)
  | _ => false

/-- The command detects a non-finite output (R201). -/
def detectsNonFiniteOutput (s : State) : Instr → Bool
  | .oscProc => !finite (wave Config.sin2pi s.oscWave s.oscPhase s.oscInc)
  | .subProc => !finite (Config.sin2pi s.subPhase)
  | _ => false

@[simp] theorem raised_false (c : Condition) : raised false c = 0#32 := rfl

theorem raised_or_raised (a b : Bool) (c : Condition) : raised a c ||| raised b c = raised (a || b) c := by
  cases a
  · exact BitVec.zero_or
  · cases b
    · exact BitVec.or_zero
    · exact BitVec.or_self

theorem recompute_status_eq_raised (s : State) :
    (recompute s).status = s.status ||| raised (recomputeClamps s) .configOutOfRange := by
  rw [recompute_eq_raised, recomputeClamps]

/-- A command's own check and the recompute after it record one condition (R203). -/
theorem status_of_check_recompute {s u t : State} {b : Bool} (ht : t = recompute u)
    (hu : u.status = s.status ||| raised b .configOutOfRange) :
    t.status = s.status ||| raised (b || recomputeClamps t) .configOutOfRange := by
  rw [ht, recompute_status_eq_raised, hu, BitVec.or_assoc, raised_or_raised, recomputeClamps_recompute]

/-- Every command but CLRST adds to STATUS the bits of the conditions it detects. -/
theorem nextState_status_eq_detected {i : Instr} (hi : i ≠ .clrst) (s : State) :
    (nextState i s).status = s.status ||| raised (detectsConfigOutOfRange s i) .configOutOfRange |||
      raised (detectsReservedIndex i) .reservedIndex ||| raised (detectsNonFiniteOutput s i) .nonFiniteOutput := by
  cases i with
  | nop | oscProc | oscRst | oscWave | subProc | subRst | read =>
    simp [nextState, detectsConfigOutOfRange, detectsReservedIndex, detectsNonFiniteOutput]
  | oscFreq | subOct | subCar =>
    simp only [detectsConfigOutOfRange, detectsReservedIndex, detectsNonFiniteOutput, raised_false, BitVec.or_zero]
    exact status_of_check_recompute rfl rfl
  | setsr x =>
    simp only [detectsConfigOutOfRange, detectsReservedIndex, detectsNonFiniteOutput, raised_false, BitVec.or_zero]
    cases hx : rateOutOfRange x
    · exact status_of_check_recompute (b := false) (nextState_setsr_stored hx s) BitVec.or_zero.symm
    · rw [nextState_setsr_ignored hx, Bool.true_or]
      rfl
  | clrst => exact absurd rfl hi

/-! ### The fields of STATUS (R29) -/

theorem getLsbD_raised (b : Bool) (c : Condition) (k : Nat) :
    (raised b c).getLsbD k = (b && c.statusBit.getLsbD k) := by
  cases b
  · exact BitVec.getLsbD_zero
  · rfl

theorem raised_and_reserved (b : Bool) (c : Condition) : raised b c &&& 0xFFFFFFF8#32 = 0#32 := by
  cases b
  · exact BitVec.zero_and
  · cases c <;> rfl

section
variable {i : Instr} (hi : i ≠ .clrst) (s : State)
include hi

theorem nextState_status_getLsbD (k : Nat) : (nextState i s).status.getLsbD k =
    (s.status.getLsbD k || detectsConfigOutOfRange s i && cfgBit.getLsbD k ||
      detectsReservedIndex i && illBit.getLsbD k || detectsNonFiniteOutput s i && nanBit.getLsbD k) := by
  simp only [nextState_status_eq_detected hi, BitVec.getLsbD_or, getLsbD_raised, Condition.statusBit]

theorem nextState_cfg : (nextState i s).cfg = (s.cfg || detectsConfigOutOfRange s i) := by
  rw [State.cfg, State.cfg, nextState_status_getLsbD hi]
  simp [cfgBit, illBit, nanBit]

theorem nextState_ill : (nextState i s).ill = (s.ill || detectsReservedIndex i) := by
  rw [State.ill, State.ill, nextState_status_getLsbD hi]
  simp [cfgBit, illBit, nanBit]

theorem nextState_nan : (nextState i s).nan = (s.nan || detectsNonFiniteOutput s i) := by
  rw [State.nan, State.nan, nextState_status_getLsbD hi]
  simp [cfgBit, illBit, nanBit]

theorem nextState_status_reserved : (nextState i s).status &&& 0xFFFFFFF8#32 = s.status &&& 0xFFFFFFF8#32 := by
  simp only [nextState_status_eq_detected hi, BitVec.and_comm _ 0xFFFFFFF8#32, BitVec.and_or_distrib_left]
  simp only [BitVec.and_comm 0xFFFFFFF8#32, raised_and_reserved, BitVec.or_zero]

end

/-! ### Each condition in R201's words -/

theorem hertzOutOfRange_iff (x : F32) : hertzOutOfRange x = true ↔ finite x = false ∨ flt x f0 = true := by
  simp [hertzOutOfRange]

theorem octOutOfRange_iff (imm : BitVec 8) : octOutOfRange imm = true ↔ imm = 0#8 ∨ 2 < imm.toNat := by
  simp [octOutOfRange, BitVec.toNat_eq]

theorem detectsConfigOutOfRange_iff (i : Instr) (s : State) : detectsConfigOutOfRange s i = true ↔
    (∃ imm, i = .oscWave imm ∧ 3 < imm.toNat) ∨
    (∃ imm, i = .subOct imm ∧ (imm = 0#8 ∨ 2 < imm.toNat)) ∨
    (∃ x, (i = .oscFreq x ∨ i = .subCar x) ∧ (finite x = false ∨ flt x f0 = true)) ∨
    (∃ x, i = .setsr x ∧ (finite x = false ∨ flt x f1 = true)) ∨
    (((∃ x, i = .oscFreq x ∨ i = .subCar x) ∨ (∃ imm, i = .subOct imm) ∨
        (∃ x, i = .setsr x ∧ finite x = true ∧ flt x f1 = false)) ∧
      recomputeClamps (nextState i s) = true) := by
  cases i with
  | nop | oscProc | oscRst | subProc | subRst | read | clrst => simp [detectsConfigOutOfRange]
  | oscWave imm => simp [detectsConfigOutOfRange, waveOutOfRange_eq]
  | oscFreq x => simp [detectsConfigOutOfRange, hertzOutOfRange_iff]
  | subCar x => simp [detectsConfigOutOfRange, hertzOutOfRange_iff]
  | subOct imm => simp [detectsConfigOutOfRange, octOutOfRange_iff]
  | setsr x =>
    cases hx : rateOutOfRange x
    · obtain ⟨hf, h1⟩ : finite x = true ∧ flt x f1 = false := by simpa [rateOutOfRange] using hx
      simp [detectsConfigOutOfRange, hx, hf, h1]
    · have hignored : finite x = false ∨ flt x f1 = true := by simpa [rateOutOfRange] using hx
      simp [detectsConfigOutOfRange, hx, hignored]

theorem detectsReservedIndex_iff (i : Instr) :
    detectsReservedIndex i = true ↔ ∃ imm, i = .read imm ∧ 12 ≤ imm.toNat := by
  cases i <;> simp [detectsReservedIndex]

theorem detectsNonFiniteOutput_iff (i : Instr) (s : State) : detectsNonFiniteOutput s i = true ↔
    (i = .oscProc ∧ finite (wave Config.sin2pi s.oscWave s.oscPhase s.oscInc) = false) ∨
    (i = .subProc ∧ finite (Config.sin2pi s.subPhase) = false) := by
  cases i <;> simp [detectsNonFiniteOutput]

/-- Settles O47: STATUS gains the bits of the conditions detected, and each detection is R201's. -/
theorem conditionsSetTheirBits : Obligations.ConditionsSetTheirBits := by
  unfold Obligations.ConditionsSetTheirBits
  intro i s t hi hexec
  obtain rfl := exec_eq_next_iff.1 hexec
  rw [nextState_cfg hi, nextState_ill hi, nextState_nan hi, Bool.or_eq_true, Bool.or_eq_true, Bool.or_eq_true,
    detectsConfigOutOfRange_iff, detectsReservedIndex_iff, detectsNonFiniteOutput_iff, recomputeClamps_iff]
  exact ⟨Iff.rfl, Iff.rfl, Iff.rfl, nextState_status_reserved hi s⟩

end Sys2Proof.Machine
end

section
/-! PROOFS. Power-on reset, the samples until the block is configured, and the order of the configuration commands
(spec/70_reset_and_hazards.md R230, R231, R235). -/

namespace Sys2Proof.Machine

/-! ### Power-on reset (R230, R231) -/

/-- Settles O43: the reset registers are legal, so R22's increments are the recompute's. -/
theorem resetIncrementsAreDerived : Obligations.ResetIncrementsAreDerived :=
  legalRegisters_reset.incrementsDerived_iff.2 ⟨by decide, by decide⟩

theorem step_powerOnReset {s : State} {rest : List HostInput} (h : s.cmdPort = .powerOnReset :: rest) :
    step s = .next (s.sendNext rest).powerOn := step_cons h

/-- Without what belongs to the host, the state a power-on reset leaves is the reset state. -/
theorem powerOn_without_host (s : State) : { s.powerOn with cmdPort := [], respTaken := [] } = State.reset := rfl

/-- Settles O54. -/
theorem powerOnResetValues : Obligations.PowerOnResetValues := by
  unfold Obligations.PowerOnResetValues
  refine ⟨⟨rfl, rfl, rfl, rfl, rfl, rfl, rfl, rfl, rfl, rfl, rfl, rfl, rfl⟩, fun s rest hport => ?_⟩
  exact ⟨_, step_powerOnReset hport, powerOn_without_host _⟩

/-! ### OSC.PROC at phase and increment 0 (R231) -/

/-- The basic oscillator rests at phase and increment 0 with waveform `w`. -/
structure RestsAtZero (w : BitVec 2) (s : State) : Prop where
  phase : s.oscPhase = f0
  inc : s.oscInc = f0
  code : s.oscWave = w

@[simp] theorem oscProcess_oscInc (sin : F32 → F32) (s : State) : (oscProcess sin s).oscInc = s.oscInc :=
  State.detectIf_oscInc _ _ s

@[simp] theorem oscProcess_oscWave (sin : F32 → F32) (s : State) : (oscProcess sin s).oscWave = s.oscWave :=
  State.detectIf_oscWave _ _ s

section
variable {w : BitVec 2} {s : State}

theorem RestsAtZero.after_oscProc (h : RestsAtZero w s) (sin : F32 → F32) : RestsAtZero w (oscProcess sin s) where
  phase := by rw [oscProcess_oscPhase, h.phase, h.inc, advancePhase_increment_zero (by decide)]
  inc := (oscProcess_oscInc sin s).trans h.inc
  code := (oscProcess_oscWave sin s).trans h.code

theorem RestsAtZero.iterate (h : RestsAtZero w s) (sin : F32 → F32) (n : Nat) :
    RestsAtZero w ((oscProcess sin)^[n] s) :=
  Function.Iterate.rec (RestsAtZero w) h (fun _ h => h.after_oscProc sin) n

/-- The response after any number of OSC.PROC is the guarded sample at phase and increment 0. -/
theorem RestsAtZero.iterate_respPort (h : RestsAtZero w s) (sin : F32 → F32) (n : Nat) :
    ((oscProcess sin)^[n + 1] s).respPort = some (guardOutput (wave sin w f0 f0)) := by
  have hn := h.iterate sin n
  rw [Function.iterate_succ_apply', oscProcess_respPort, hn.phase, hn.inc, hn.code]

end

theorem tri_zero : tri f0 = f1 := by decide

/-- At increment 0 the saw has no correction: neither window holds. -/
theorem saw_zero : saw f0 f0 = fNeg1 := by
  rw [saw, blep_increment_zero (by decide)]
  decide

/-- At increment 0 the pulse has no correction at either edge. -/
theorem pulse_zero : pulse f0 f0 = f1 := by
  rw [pulse, blep_increment_zero (by decide), blep_increment_zero (by decide)]
  decide

/-- Settles O55: OSC.PROC keeps a resting oscillator at rest, so every response is the sample at phase 0. -/
theorem constantUntilConfigured : Obligations.ConstantUntilConfigured := by
  unfold Obligations.ConstantUntilConfigured
  intro sin s n hphase hinc
  have hrest : RestsAtZero s.oscWave s := ⟨hphase, hinc, rfl⟩
  have hresp {y : F32} (hfin : finite y = true) (hy : wave sin s.oscWave f0 f0 = y) :
      ((oscProcess sin)^[n + 1] s).respPort = some y := by
    rw [hrest.iterate_respPort, hy, guardOutput_of_finite hfin]
  refine ⟨(hrest.iterate sin (n + 1)).phase, fun hw => hresp finite_f1 ?_, fun hw => hresp finite_fNeg1 ?_,
    fun hw => hresp finite_f1 ?_, fun hsin hw => hresp finite_f0 ?_⟩
  · rw [hw, wave_one, tri_zero]
    rfl
  · rw [hw, wave_two, saw_zero]
    rfl
  · rw [hw, wave_three, pulse_zero]
    rfl
  · rw [hw, wave_zero]
    exact (referenceSineAtQuarters.2 sin hsin).1

/-! ### The order of two configuration commands (R235) -/

/-- In either order the two commands leave one state but for STATUS. -/
def CommuteButStatus (i j : Instr) : Prop :=
  ∀ s : State, { nextState i (nextState j s) with status := (nextState j (nextState i s)).status } =
    nextState j (nextState i s)

theorem symm_commuteButStatus : Std.Symm CommuteButStatus where
  symm i j h s :=
    congrArg (fun u : State => { u with status := (nextState i (nextState j s)).status }) (h s).symm

/-- An ignored SETSR changes only STATUS, which no command but READ 11 reads. -/
theorem commuteButStatus_setsr_ignored {i : Instr} (hi : i ≠ .read 11#8) {r : F32} (hr : rateOutOfRange r = true) :
    CommuteButStatus i (.setsr r) := by
  intro s
  rw [nextState_setsr_ignored hr, nextState_setsr_ignored hr]
  obtain ⟨status, resp, hnext, hresp⟩ := nextState_with_status i s (s.status ||| cfgBit)
  rw [hnext, hresp hi]

section
variable (w o : BitVec 8) (f c r : F32)

/-- Each of these writes a register of its own, and the last recompute finds what both wrote. -/
theorem pairwise_commuteButStatus_without_setsr :
    [Instr.oscWave w, .oscFreq f, .subOct o, .subCar c].Pairwise CommuteButStatus := by
  simp only [List.pairwise_cons, List.forall_mem_cons, List.not_mem_nil, false_implies, implies_true,
    List.Pairwise.nil, and_true]
  refine ⟨⟨?_, ?_, ?_⟩, ⟨?_, ?_⟩, ?_⟩
  all_goals
    intro s
    simp only [nextState, recompute_eq_raised]

theorem commuteButStatus_setsr {i : Instr} (hi : i ∈ [Instr.oscWave w, .oscFreq f, .subOct o, .subCar c]) :
    CommuteButStatus i (.setsr r) := by
  simp only [List.mem_cons, List.not_mem_nil, or_false] at hi
  cases hr : rateOutOfRange r
  · intro s
    rw [nextState_setsr_stored hr, nextState_setsr_stored hr]
    rcases hi with rfl | rfl | rfl | rfl
    all_goals simp only [nextState, recompute_eq_raised]
  · refine commuteButStatus_setsr_ignored ?_ hr
    rcases hi with rfl | rfl | rfl | rfl <;> nofun

theorem pairwise_commuteButStatus :
    ([Instr.oscWave w, .oscFreq f, .subOct o, .subCar c] ++ [Instr.setsr r]).Pairwise CommuteButStatus := by
  refine List.pairwise_append.2 ⟨pairwise_commuteButStatus_without_setsr w o f c, List.pairwise_singleton _ _,
    fun i hi j hj => ?_⟩
  rw [List.mem_singleton.1 hj]
  exact commuteButStatus_setsr w o f c r hi

end

/-- Settles O51: the five commands commute pairwise but for STATUS, and commuting is symmetric. -/
theorem configurationOrderDoesNotMatter : Obligations.ConfigurationOrderDoesNotMatter := by
  unfold Obligations.ConfigurationOrderDoesNotMatter
  intro s t u t' u' w o f c r i hi j hj hne hit hju hjt' hiu'
  obtain rfl := exec_eq_next_iff.1 hit
  obtain rfl := exec_eq_next_iff.1 hju
  obtain rfl := exec_eq_next_iff.1 hjt'
  obtain rfl := exec_eq_next_iff.1 hiu'
  have := symm_commuteButStatus
  exact (pairwise_commuteButStatus w o f c r).forall hi hj hne s

end Sys2Proof.Machine
end
